-- ==== Sys2Proof/Word.lean ====
section
/-!
DEFINITION. The widths of the engine: the storage word of 00_scope.md R6 (WORDBITS), the state register of 288 cells
(10_state.md R13), an output byte, and an 80-bit operand (30_encoding.md R55, R56).
-/

namespace Sys2Proof

/-- An output byte, `dout[7:0]` (30_encoding.md R51). -/
abbrev Byte := BitVec 8

/-- A storage word `W[k]`, 64 bits (10_state.md R15). -/
abbrev Word := BitVec 64

/-- The state register `S`: 288 cells, cell `i` being the bit of weight `2^(288 - i)` (20_memory.md R33 without the pad). -/
abbrev Reg := BitVec 288

/-- A key or an IV on its port: exactly 80 bits, so another length cannot be written down (43_initialization.md R108). -/
abbrev Operand := BitVec 80

end Sys2Proof
end

