-- ==== Sys2Proof/Syntax.lean ====
section
/-!
DEFINITION. The four commands of spec/opcode_table.json (30_encoding.md R53) and the input ports they arrive on (R51).
-/

namespace Sys2Proof

/-- A command, one constructor per row of the opcode table; only INIT has operands (30_encoding.md R52, R53). -/
inductive Instr where
  /-- IDLE, code 00 (42_keystream_output.md R97). -/
  | idle
  /-- INIT, code 01, with the operands K and V (43_initialization.md R104). -/
  | init (key iv : Operand)
  /-- NEXTBIT, code 10 (42_keystream_output.md R91). -/
  | nextBit
  /-- NEXTBYTE, code 11 (42_keystream_output.md R94). -/
  | nextByte
deriving DecidableEq, Repr

/-- What the input ports `rst`, `cmd`, `key`, `iv` carry at one rising edge of `clk` (30_encoding.md R51). -/
structure Pins where
  rst : Bool
  cmd : BitVec 2
  key : Operand
  iv : Operand
deriving DecidableEq, Repr

/-- A host that means no command: `rst` low and `cmd` IDLE (70_reset_and_hazards.md R141). -/
def Pins.quiet : Pins := { rst := false, cmd := 0, key := 0, iv := 0 }

end Sys2Proof
end

