-- ==== Sys2Proof/Config.lean ====
section
/-!
DEFINITION. The fixed constants of 00_scope.md R6, the wiring of the engine (tap cells, load positions) as one value, and the
open parameters of R8, which no rule reads.
-/

namespace Sys2Proof

/-- Fifteen things, one per tap of the XOR tree, in the order of the table of 41_clock_update.md R76. The first six are the
output taps, then the AND taps and the linear feedback tap of each feedback bit. -/
structure Taps (α : Type) where
  /-- the tap of cell 66 -/
  outA1 : α
  /-- the tap of cell 93 -/
  outA2 : α
  /-- the tap of cell 162 -/
  outB1 : α
  /-- the tap of cell 177 -/
  outB2 : α
  /-- the tap of cell 243 -/
  outC1 : α
  /-- the tap of cell 288 -/
  outC2 : α
  /-- the tap of cell 91 -/
  andA1 : α
  /-- the tap of cell 92 -/
  andA2 : α
  /-- the tap of cell 171 -/
  linB : α
  /-- the tap of cell 175 -/
  andB1 : α
  /-- the tap of cell 176 -/
  andB2 : α
  /-- the tap of cell 264 -/
  linC : α
  /-- the tap of cell 286 -/
  andC1 : α
  /-- the tap of cell 287 -/
  andC2 : α
  /-- the tap of cell 69 -/
  linA : α
deriving DecidableEq, Repr

/-- The taps as a list, in the order in which STEP reads them (41_clock_update.md R76, 60_exceptions.md R123). -/
def Taps.toList {α : Type} (t : Taps α) : List α :=
  [t.outA1, t.outA2, t.outB1, t.outB2, t.outC1, t.outC2, t.andA1, t.andA2, t.linB, t.andB1, t.andB2, t.linC, t.andC1, t.andC2,
    t.linA]

/-- Every cell number that is a constant of the wiring and passes the bounds check of the decoder (40_bit_addressing.md R74):
the fifteen taps, the first cell of the key and of the IV, and the cells loaded with 1. It is a value, and not literals spread
over the rules, so that the fault path has a meaning: a wiring with a defective constant is what reaches it
(60_exceptions.md R118; log entry 8). -/
structure Wiring where
  taps : Taps Nat
  keyLo : Nat
  ivLo : Nat
  ones : List Nat
deriving DecidableEq, Repr

/-- NCELL, the number of cells (00_scope.md R6). -/
abbrev Config.ncell : Nat := 288

/-- WORDBITS, bits per storage word (00_scope.md R6). -/
abbrev Config.wordBits : Nat := 64

/-- NWORD, storage words (00_scope.md R6). -/
abbrev Config.nword : Nat := 5

/-- NPAD, physical bit positions that hold no cell (00_scope.md R6). -/
abbrev Config.npad : Nat := 32

/-- KEYBITS and IVBITS, the width of an operand (00_scope.md R6). -/
abbrev Config.operandBits : Nat := 80

/-- NWARM, warm-up steps, 4 × 288 (00_scope.md R6). -/
def Config.nwarm : Nat := 1152

/-- BYTEBITS, steps per byte (00_scope.md R6). -/
abbrev Config.byteBits : Nat := 8

/-- The wiring of the engine: the taps of 41_clock_update.md R76 and the load positions of 43_initialization.md R101. -/
def Config.wiring : Wiring where
  taps :=
    { outA1 := 66, outA2 := 93, outB1 := 162, outB2 := 177, outC1 := 243, outC2 := 288
      andA1 := 91, andA2 := 92, linB := 171, andB1 := 175, andB2 := 176, linC := 264
      andC1 := 286, andC2 := 287, linA := 69 }
  keyLo := 1
  ivLo := 94
  ones := [286, 287, 288]

/-- How `rst` may act (00_scope.md R8, RST_STYLE; 93_implementation_defined.md U15). -/
inductive RstStyle where
  | synchronous
  | asynchronous
deriving DecidableEq, Repr, Inhabited

/-- RST_STYLE, left to the integrator: no body, nothing reads it (70_reset_and_hazards.md R132; log entry 10). -/
opaque Config.rstStyle : RstStyle

/-- CLK_PERIOD, left to the integrator, in a unit the spec does not name: no body, nothing reads it (00_scope.md R8; log
entry 10). -/
opaque Config.clkPeriod : Nat

end Sys2Proof
end

