-- ==== Sys2Proof/WellFormed.lean ====
section
/-!
DEFINITION. The checks of the spec on what is given to the engine: the range of a cell number (40_bit_addressing.md R70), the
length of a key or IV given as bytes (60_exceptions.md R116), the wiring constants (R74), and commands, every one of which is
legal (30_encoding.md R60, R61).
-/

namespace Sys2Proof

/-- A cell number is legal when it is in 1..288 (40_bit_addressing.md R70). -/
def legalCell (i : Nat) : Bool := decide (1 ≤ i) && decide (i ≤ Config.ncell)

/-- A key or IV given as bytes is legal when it is exactly 10 bytes (60_exceptions.md R116). -/
def legalOperandBytes (bytes : List Byte) : Bool := decide (bytes.length = 10)

/-- A wiring is legal when every cell number it holds or implies is (40_bit_addressing.md R74). -/
def Wiring.wellFormed (w : Wiring) : Bool :=
  w.taps.toList.all legalCell && (legalCell w.keyLo && legalCell (w.keyLo + 79))
    && (legalCell w.ivLo && legalCell (w.ivLo + 79)) && w.ones.all legalCell

/-- Every command is well formed: all four codes are commands and every 80-bit value is a legal key and a legal IV
(30_encoding.md R60, R61). -/
def Instr.wellFormed : Instr → Bool
  | .idle => true
  | .init _ _ => true
  | .nextBit => true
  | .nextByte => true

end Sys2Proof
end

