-- ==== Sys2Proof/Decode.lean ====
section
/-!
DEFINITION. The command decoder, total on its two bits (30_encoding.md R60, R64), the encoder, the reading of an opcode-table
word, and the byte-string front of INIT with its two named errors (60_exceptions.md R116).
-/

namespace Sys2Proof

/-- Decoding needs only `cmd[1:0]`; `key` and `iv` take part only with code 01 (30_encoding.md R53, R64). -/
def decode (p : Pins) : Instr :=
  match p.cmd.getLsbD 1, p.cmd.getLsbD 0 with
  | false, false => .idle
  | false, true => .init p.key p.iv
  | true, false => .nextBit
  | true, true => .nextByte

/-- What the host drives to present a command with `rst` low (30_encoding.md R52, R53). The operand ports, which every command
but INIT ignores, carry 0. -/
def encode : Instr → Pins
  | .idle => { rst := false, cmd := 0b00, key := 0, iv := 0 }
  | .init key iv => { rst := false, cmd := 0b01, key := key, iv := iv }
  | .nextBit => { rst := false, cmd := 0b10, key := 0, iv := 0 }
  | .nextByte => { rst := false, cmd := 0b11, key := 0, iv := 0 }

/-- The ports at an edge that presents the table word `w`: bits 1..0 are `cmd`, and the operands, to which the table gives no
bits, are 0 (log entry 4). -/
def tablePins (nbits w : Nat) : Pins :=
  { rst := false, cmd := BitVec.ofNat 2 (w % 2 ^ nbits), key := 0, iv := 0 }

/-- The command my decoder reads from the table word `w`. The command port has two bits, so a word with another bit set is not
on it and is refused (log entry 4). -/
def decodeTableWord (nbits w : Nat) : Option Instr :=
  if w % 2 ^ nbits < 4 then some (decode (tablePins nbits w)) else none

/-- The two named errors of a software front that takes byte strings (60_exceptions.md R116, 90_conflicts.md C6). The engine
itself never raises them. -/
inductive InputShapeFailure where
  /-- the key is not exactly 10 bytes; raised by `initOfBytes`; safe: no command results -/
  | invalidKeyLength
  /-- the IV is not exactly 10 bytes; raised by `initOfBytes`; safe: no command results -/
  | invalidIVLength
deriving DecidableEq, Repr

/-- Bytes laid on an 80-bit port, byte 0 at the most significant end (30_encoding.md R55). -/
def operandOfBytes (bytes : List Byte) : Operand :=
  bytes.foldl (fun acc b => (acc <<< 8) ||| b.setWidth 80) 0

/-- INIT from byte strings: key checked first, then the IV, before anything reaches the engine (60_exceptions.md R116). -/
def initOfBytes (key iv : List Byte) : Except InputShapeFailure Instr :=
  if legalOperandBytes key = false then .error .invalidKeyLength
  else if legalOperandBytes iv = false then .error .invalidIVLength
  else .ok (.init (operandOfBytes key) (operandOfBytes iv))

end Sys2Proof
end

