-- ==== Sys2Proof/Machine/State.lean ====
section
/-!
DEFINITION. Every piece of state the spec gives the engine (10_state.md R13 to R25, R29), the fault and refusal reasons, and
the state after reset (70_reset_and_hazards.md R133).
-/

namespace Sys2Proof.Machine

/-- The engine's one fault (60_exceptions.md R114, R115). -/
inductive Fault where
  /-- ContractFailure(i): the cell number `i` outside 1..288 reached RESOLVE, GETBIT or SETBIT, and through them STEP or LOAD,
  or a word index above 4 was used for it. Safe. The engine's answer to it is a NEXT state in phase FAULT (R119), so no step
  of the machine answers a fault (log entry 5). -/
  | contractFailure (i : Nat)
deriving DecidableEq, Repr, Inhabited

/-- The reasons to have no meaning for a command. -/
inductive Refusal where
  /-- A command with no meaning yet, by its mnemonic. Raised only by an arm of `exec`; no arm does. Safe. -/
  | notModelled (mnemonic : String)
deriving DecidableEq, Repr

/-- The sequencing state (10_state.md R18). -/
inductive Phase where
  /-- no key has been loaded since reset -/
  | uninit
  /-- a load has been done and the 1152 warm-up steps are running -/
  | warmup
  /-- the live generator -/
  | run
  /-- steps 2 to 8 of an accepted NEXTBYTE are running -/
  | byte
  /-- a contract failure was detected; `why` is the index recorded in the model only (60_exceptions.md R115, R117; log entry
  5) -/
  | fault (why : Fault)
deriving DecidableEq, Repr, Inhabited

/-- The state of the engine between two rising edges, and the samples its host presents on the coming ones. -/
structure State where
  /-- `S`, the 288 cells (10_state.md R13) -/
  reg : Reg
  /-- `phase` (R18) -/
  phase : Phase
  /-- `wcnt`, warm-up steps done since the last load (R19) -/
  wcnt : BitVec 11
  /-- `bcnt`, bits of the current byte already produced (R20) -/
  bcnt : BitVec 3
  /-- `acc`, the bits of a byte in progress (R21) -/
  acc : Byte
  /-- `dout`, the last value returned (R22) -/
  dout : Byte
  /-- `dout_valid` (R23) -/
  doutValid : Bool
  /-- THE MODEL'S OWN FIELD: what the host's ports carry at the coming edges, oldest first; when it is empty the ports are
  quiet (30_encoding.md R51; log entry 2) -/
  pins : List Pins
deriving DecidableEq, Repr

/-- The state after reset (10_state.md R29, 70_reset_and_hazards.md R133), with nothing presented by the host. -/
def State.reset : State where
  reg := 0
  phase := .uninit
  wcnt := 0
  bcnt := 0
  acc := 0
  dout := 0
  doutValid := false
  pins := []

/-- POWERON: every state element before the first reset holds an unspecified value (70_reset_and_hazards.md R134). A register
of each kind, with no body; no rule reads them and a run starts at `State.reset` (log entry 9). -/
opaque State.powerOnReg : Reg
@[inherit_doc State.powerOnReg] opaque State.powerOnPhase : Phase
@[inherit_doc State.powerOnReg] opaque State.powerOnWcnt : BitVec 11
@[inherit_doc State.powerOnReg] opaque State.powerOnBcnt : BitVec 3
@[inherit_doc State.powerOnReg] opaque State.powerOnAcc : Byte
@[inherit_doc State.powerOnReg] opaque State.powerOnDout : Byte
@[inherit_doc State.powerOnReg] opaque State.powerOnDoutValid : Bool

/-- The engine before its first reset, with the ports as the host drives them (70_reset_and_hazards.md R134). -/
def State.powerOn (pins : List Pins) : State where
  reg := State.powerOnReg
  phase := State.powerOnPhase
  wcnt := State.powerOnWcnt
  bcnt := State.powerOnBcnt
  acc := State.powerOnAcc
  dout := State.powerOnDout
  doutValid := State.powerOnDoutValid
  pins := pins

end Sys2Proof.Machine
end

