-- ==== Sys2Proof/Machine/Ops.lean ====
section
/-!
DEFINITION. The named operations over the register and the state: the cell and word views, the bit-addressing decoder with
GETBIT and SETBIT (40_bit_addressing.md), fault entry and its only exit, reset (60_exceptions.md R119, R121), and the sampling
of the ports.
-/

namespace Sys2Proof.Machine

/-! ## Cells and words -/

/-- `s[i]`, cell `i` for `i` in 1..288 (00_scope.md R9, R10), the bit of weight `2^(288 - i)` of the register. Rules use it on
cell numbers in range; a number that may be out of range goes through `getBit`. -/
def cell (s : Reg) (i : Nat) : Bool := s.getLsbD (Config.ncell - i)

/-- The vector of `n` cells whose cell `i` is `f i`, cell 1 at the most significant end. -/
def ofCells : (n : Nat) → (Nat → Bool) → BitVec n
  | 0, _ => 0#0
  | n + 1, f => (ofCells n f).concat (f (n + 1))

/-- The 320-bit string `R = W[0] ‖ W[1] ‖ W[2] ‖ W[3] ‖ W[4]`: the cells, then the 32 pad bits, which are always 0
(20_memory.md R33, 10_state.md R16). -/
def storage (s : Reg) : BitVec 320 := s ++ 0#Config.npad

/-- `W[k]` for `k` in 0..4, a view of the register (10_state.md R15). -/
def word (s : Reg) (k : Nat) : Word := (storage s).extractLsb' (Config.wordBits * (4 - k)) Config.wordBits

/-- The register whose storage has word `k` replaced by `x`; what falls on the pad is not stored (10_state.md R16). -/
def putWord (s : Reg) (k : Nat) (x : Word) : Reg :=
  let at0 := Config.wordBits * (4 - k)
  let mask : BitVec 320 := (BitVec.allOnes Config.wordBits).setWidth 320 <<< at0
  ((storage s &&& ~~~mask) ||| (x.setWidth 320 <<< at0)).extractLsb' Config.npad Config.ncell

/-! ## The bit-addressing decoder -/

/-- RESOLVE(i): the word and the offset of cell `i`, with the bounds check first (40_bit_addressing.md R67, R70). It is the one
place that turns a cell number into a 0-based position (R72). -/
def resolve (i : Nat) : Except Fault (Nat × Nat) :=
  if i < 1 ∨ Config.ncell < i then .error (.contractFailure i)
  else .ok ((i - 1) / Config.wordBits, (Config.wordBits - 1) - (i - 1) % Config.wordBits)

/-- Word `k` of the array of five, reached for cell `i`; a word index above 4 is the same contract failure
(40_bit_addressing.md R71). -/
def wordAt (s : Reg) (i k : Nat) : Except Fault Word :=
  if k < Config.nword then .ok (word s k) else .error (.contractFailure i)

/-- GETBIT(i), `MemRead(i, 1)`: shift the word right by the offset and mask to one bit (40_bit_addressing.md R68). -/
def getBit (s : Reg) (i : Nat) : Except Fault Bool :=
  match resolve i with
  | .error e => .error e
  | .ok (w, o) =>
    match wordAt s i w with
    | .error e => .error e
    | .ok x => .ok ((x >>> o).getLsbD 0)

/-- A bit as a word of weight `2^0`. -/
def bitWord (v : Bool) : Word := (BitVec.ofBool v).setWidth Config.wordBits

/-- SETBIT(i, v), `MemWrite(i, 1, v)`: clear the target bit by a mask, then OR in the new bit (40_bit_addressing.md R69). -/
def setBit (s : Reg) (i : Nat) (v : Bool) : Except Fault Reg :=
  match resolve i with
  | .error e => .error e
  | .ok (w, o) =>
    match wordAt s i w with
    | .error e => .error e
    | .ok x => .ok (putWord s w ((x &&& ~~~(1#64 <<< o)) ||| (bitWord v <<< o)))

/-- The decoder as a circuit on `idx[8:0]` (40_bit_addressing.md R73): the valid flag. -/
def decoderOk (idx : BitVec 9) : Bool := decide (1 ≤ idx.toNat) && decide (idx.toNat ≤ Config.ncell)

/-- The decoder as a circuit: the word index `w[2:0] = (idx - 1)[8:6]` (40_bit_addressing.md R73). -/
def decoderWord (idx : BitVec 9) : BitVec 3 := (idx - 1).extractLsb' 6 3

/-- The decoder as a circuit: the offset, the complement of `(idx - 1)[5:0]` (40_bit_addressing.md R73). -/
def decoderOffset (idx : BitVec 9) : BitVec 6 := ~~~((idx - 1).extractLsb' 0 6)

/-- The decoder as a circuit: the one-hot select line of cell `i` (40_bit_addressing.md R73). -/
def decoderSel (idx : BitVec 9) (i : Nat) : Bool := decide (idx.toNat = i)

/-- GETBIT as a circuit: the 288-to-1 multiplexer, gated by the valid flag (40_bit_addressing.md R73). -/
def getBitCircuit (s : Reg) (idx : BitVec 9) : Bool :=
  decoderOk idx && (List.range' 1 Config.ncell).any fun i => decoderSel idx i && cell s i

/-! ## One register of the state at a time -/

/-- Write `S`. -/
def State.setReg (s : State) (x : Reg) : State := { s with reg := x }

/-- Write `phase`. -/
def State.setPhase (s : State) (x : Phase) : State := { s with phase := x }

/-- Write `wcnt`. -/
def State.setWcnt (s : State) (x : BitVec 11) : State := { s with wcnt := x }

/-- Write `bcnt`. -/
def State.setBcnt (s : State) (x : BitVec 3) : State := { s with bcnt := x }

/-- Write `acc`. -/
def State.setAcc (s : State) (x : Byte) : State := { s with acc := x }

/-- Write `dout`. -/
def State.setDout (s : State) (x : Byte) : State := { s with dout := x }

/-- Write `dout_valid`. -/
def State.setDoutValid (s : State) (x : Bool) : State := { s with doutValid := x }

/-- Replace the samples still to come (the model's own field). -/
def State.setPins (s : State) (x : List Pins) : State := { s with pins := x }

/-! ## Taking the exception, and its only exit -/

/-- Fault entry (60_exceptions.md R119), on the state before the edge: none of the edge's writes happens, `dout_valid` falls
and the phase becomes FAULT, with the index recorded in the model. Nothing is saved and control goes nowhere. -/
def takeFault (e : Fault) (s : State) : State := (s.setDoutValid false).setPhase (.fault e)

/-- An edge with `rst = 1` (70_reset_and_hazards.md R132, R133): the reset state, whatever stood before. It is the only return
from FAULT (60_exceptions.md R121). The samples still to come stay with the host. -/
def resetEdge (s : State) : State := State.reset.setPins s.pins

/-- What the ports carry at this edge, and the state with that sample used up; a host with nothing more to present leaves them
quiet (70_reset_and_hazards.md R141; log entry 2). -/
def sample (s : State) : Pins × State :=
  match s.pins with
  | [] => (Pins.quiet, s)
  | p :: ps => (p, s.setPins ps)

end Sys2Proof.Machine
end

