-- ==== Sys2Proof/Machine/Operands.lean ====
section
/-!
DEFINITION. Operand and result formats: the byte and bit order of a key or IV (20_memory.md R35, 30_encoding.md R55, R56), the
result of NEXTBIT and the packing of NEXTBYTE (30_encoding.md R58, 42_keystream_output.md R93).
-/

namespace Sys2Proof.Machine

/-- Byte `j` of an operand on its port, `X[j] = x[79 - 8j : 72 - 8j]`, `j` in 0..9 (30_encoding.md R55, R56). -/
def operandByte (x : Operand) (j : Nat) : Byte := x.extractLsb' (72 - 8 * j) 8

/-- `KeyBit(X, n)`, `n` in 0..79: bit `7 - (n mod 8)` of byte `n div 8` (20_memory.md R35). -/
def keyBit (x : Operand) (n : Nat) : Bool := (operandByte x (n / 8)).getLsbD (7 - n % 8)

/-- `zext_8(b)` (00_scope.md R10). -/
def zext8 (b : Bool) : Byte := (BitVec.ofBool b).setWidth 8

/-- The bits of `zs`, in the order produced, into bit positions `n`, `n + 1`, ... of a byte (42_keystream_output.md R94). -/
def packFrom : Nat → List Bool → Byte
  | _, [] => 0
  | n, z :: zs => (zext8 z <<< n) ||| packFrom (n + 1) zs

/-- `Pack8(z0, ..., z7)`: the bit produced first is the least significant (42_keystream_output.md R93). -/
def pack8 (z0 z1 z2 z3 z4 z5 z6 z7 : Bool) : Byte := packFrom 0 [z0, z1, z2, z3, z4, z5, z6, z7]

end Sys2Proof.Machine
end

