-- ==== Sys2Proof/Machine/Flags.lean ====
section
/-!
DEFINITION. The status of the engine: `ready` and `fault`, functions of the phase (10_state.md R24, R25), the four outputs of
30_encoding.md R51, and which command a phase accepts (R54). The engine has no other flags (10_state.md R27).
-/

namespace Sys2Proof.Machine

/-- `ready` in a phase (10_state.md R18, R24). -/
def Phase.ready : Phase → Bool
  | .uninit => true
  | .warmup => false
  | .run => true
  | .byte => false
  | .fault _ => false

/-- `fault` in a phase (10_state.md R18, R25). -/
def Phase.faulted : Phase → Bool
  | .uninit => false
  | .warmup => false
  | .run => false
  | .byte => false
  | .fault _ => true

/-- The output `ready` (10_state.md R24). -/
def State.ready (s : State) : Bool := s.phase.ready

/-- The output `fault` (10_state.md R25). -/
def State.faultFlag (s : State) : Bool := s.phase.faulted

/-- The four outputs, functions of the state registers only (30_encoding.md R51). -/
structure Outputs where
  ready : Bool
  dout : Byte
  doutValid : Bool
  fault : Bool
deriving DecidableEq, Repr

/-- What the host sees in a cycle (70_reset_and_hazards.md R148). -/
def State.outputs (s : State) : Outputs :=
  { ready := s.ready, dout := s.dout, doutValid := s.doutValid, fault := s.faultFlag }

/-- The acceptance table of 30_encoding.md R54, by phase and command. -/
def accepts : Phase → Instr → Bool
  | .uninit, .idle => true
  | .uninit, .init _ _ => true
  | .uninit, .nextBit => false
  | .uninit, .nextByte => false
  | .warmup, _ => false
  | .run, _ => true
  | .byte, _ => false
  | .fault _, _ => false

end Sys2Proof.Machine
end

