-- ==== Sys2Proof/Machine/Clock.lean ====
section
/-!
DEFINITION. The clock update (41_clock_update.md): the taps, the XOR tree, the shift, the pure step `clockStep`, the
micro-operation STEP, the word-level form of R86 and the splice form of R88.
-/

namespace Sys2Proof.Machine

/-! ## The XOR tree -/

/-- The fifteen tap values of a register, by fixed wiring (41_clock_update.md R76). -/
def tapBits (s : Reg) : Taps Bool where
  outA1 := cell s 66
  outA2 := cell s 93
  outB1 := cell s 162
  outB2 := cell s 177
  outC1 := cell s 243
  outC2 := cell s 288
  andA1 := cell s 91
  andA2 := cell s 92
  linB := cell s 171
  andB1 := cell s 175
  andB2 := cell s 176
  linC := cell s 264
  andC1 := cell s 286
  andC2 := cell s 287
  linA := cell s 69

/-- The first stage `a1 = s[66] ^ s[93]` (41_clock_update.md R77). -/
def stageA (b : Taps Bool) : Bool := b.outA1 ^^ b.outA2

/-- The first stage `a2 = s[162] ^ s[177]` (41_clock_update.md R77). -/
def stageB (b : Taps Bool) : Bool := b.outB1 ^^ b.outB2

/-- The first stage `a3 = s[243] ^ s[288]` (41_clock_update.md R77). -/
def stageC (b : Taps Bool) : Bool := b.outC1 ^^ b.outC2

/-- The output bit `z = a1 ^ a2 ^ a3` (41_clock_update.md R78). -/
def outputBit (b : Taps Bool) : Bool := stageA b ^^ stageB b ^^ stageC b

/-- `t1 = a1 ^ (s[91] & s[92]) ^ s[171]` (41_clock_update.md R79). -/
def feedback1 (b : Taps Bool) : Bool := stageA b ^^ (b.andA1 && b.andA2) ^^ b.linB

/-- `t2 = a2 ^ (s[175] & s[176]) ^ s[264]` (41_clock_update.md R79). -/
def feedback2 (b : Taps Bool) : Bool := stageB b ^^ (b.andB1 && b.andB2) ^^ b.linC

/-- `t3 = a3 ^ (s[286] & s[287]) ^ s[69]` (41_clock_update.md R79). -/
def feedback3 (b : Taps Bool) : Bool := stageC b ^^ (b.andC1 && b.andC2) ^^ b.linA

/-! ## The shift -/

/-- Sub-register A, cells 1..93 (10_state.md R14). -/
def subA (s : Reg) : BitVec 93 := s.extractLsb' 195 93

/-- Sub-register B, cells 94..177 (10_state.md R14). -/
def subB (s : Reg) : BitVec 84 := s.extractLsb' 111 84

/-- Sub-register C, cells 178..288 (10_state.md R14). -/
def subC (s : Reg) : BitVec 111 := s.extractLsb' 0 111

/-- One place toward higher cell numbers: `b` is put in at the first cell, the last cell is dropped (41_clock_update.md R80). -/
def shiftIn {n : Nat} (b : Bool) (x : BitVec n) : BitVec n := (BitVec.cons b x).extractLsb' 1 n

/-- `S'`: t3 enters A, t1 enters B, t2 enters C (41_clock_update.md R80). -/
def shifted (s : Reg) (t1 t2 t3 : Bool) : Reg := shiftIn t3 (subA s) ++ shiftIn t1 (subB s) ++ shiftIn t2 (subC s)

/-! ## The step -/

/-- The next register and the output bit, given the tap values, which were all read before the shift (41_clock_update.md
R83). -/
def stepOn (s : Reg) (b : Taps Bool) : Reg × Bool :=
  (shifted s (feedback1 b) (feedback2 b) (feedback3 b), outputBit b)

/-- `Step(S)`, the pure function returning `(S', z)`, total on every register (41_clock_update.md R82). -/
def clockStep (s : Reg) : Reg × Bool := stepOn s (tapBits s)

/-- The tap reads of STEP through the decoder, in the order of the table, the first bad index winning (41_clock_update.md R84,
60_exceptions.md R123). -/
def readTaps (w : Taps Nat) (s : Reg) : Except Fault (Taps Bool) := do
  let outA1 ← getBit s w.outA1
  let outA2 ← getBit s w.outA2
  let outB1 ← getBit s w.outB1
  let outB2 ← getBit s w.outB2
  let outC1 ← getBit s w.outC1
  let outC2 ← getBit s w.outC2
  let andA1 ← getBit s w.andA1
  let andA2 ← getBit s w.andA2
  let linB ← getBit s w.linB
  let andB1 ← getBit s w.andB1
  let andB2 ← getBit s w.andB2
  let linC ← getBit s w.linC
  let andC1 ← getBit s w.andC1
  let andC2 ← getBit s w.andC2
  let linA ← getBit s w.linA
  return { outA1, outA2, outB1, outB2, outC1, outC2, andA1, andA2, linB, andB1, andB2, linC, andC1, andC2, linA }

/-- STEP, the micro-operation (41_clock_update.md R84), for a wiring `w`; a bad tap index raises and nothing is written. -/
def microStep (w : Wiring) (s : Reg) : Except Fault (Reg × Bool) :=
  match readTaps w.taps s with
  | .error e => .error e
  | .ok b => .ok (stepOn s b)

/-- `Step^n(S)`, outputs dropped (00_scope.md R10). -/
def stepMany : Nat → Reg → Reg
  | 0, s => s
  | n + 1, s => stepMany n (clockStep s).1

/-- The first `n` output bits of the register `s`, in the order produced (42_keystream_output.md R98). -/
def keystream : Nat → Reg → List Bool
  | 0, _ => []
  | n + 1, s => (clockStep s).2 :: keystream n (clockStep s).1

/-- `Warm(S) = Step^1152(S)` (43_initialization.md R103). -/
def warm (s : Reg) : Reg := stepMany Config.nwarm s

/-! ## Two other forms of the step -/

/-- `bit(i)`, the mask of cell `i` in the 320-bit string (41_clock_update.md R86). -/
def stringBit (i : Nat) : BitVec 320 := 1#320 <<< (320 - i)

/-- The fifteen taps read from the 320-bit string, before the shift. -/
def stringTaps (r : BitVec 320) : Taps Bool :=
  let c := fun i => r.getLsbD (320 - i)
  { outA1 := c 66, outA2 := c 93, outB1 := c 162, outB2 := c 177, outC1 := c 243, outC2 := c 288, andA1 := c 91, andA2 := c 92
    linB := c 171, andB1 := c 175, andB2 := c 176, linC := c 264, andC1 := c 286, andC2 := c 287, linA := c 69 }

/-- Overwrite cell `i` of the 320-bit string (41_clock_update.md R86). -/
def stringPut (r : BitVec 320) (i : Nat) (v : Bool) : BitVec 320 :=
  (r &&& ~~~(stringBit i)) ||| (if v then stringBit i else 0)

/-- The word-level form of the step: one shift of the whole string, three overwrites, and the pad bit cleared
(41_clock_update.md R86). -/
def stringStep (r : BitVec 320) : BitVec 320 × Bool :=
  let b := stringTaps r
  let r1 := r >>> 1
  let r2 := stringPut r1 1 (feedback3 b)
  let r3 := stringPut r2 94 (feedback1 b)
  let r4 := stringPut r3 178 (feedback2 b)
  (r4 &&& ~~~(stringBit 289), outputBit b)

/-- The software splice: shift, then SETBIT(1, t3), SETBIT(94, t1), SETBIT(178, t2) (41_clock_update.md R88). -/
def spliceStep (s : Reg) : Except Fault (Reg × Bool) := do
  let b := tapBits s
  let s1 ← setBit (s >>> 1) 1 (feedback3 b)
  let s2 ← setBit s1 94 (feedback1 b)
  let s3 ← setBit s2 178 (feedback2 b)
  return (s3, outputBit b)

end Sys2Proof.Machine
end

