-- ==== Sys2Proof/Machine/Load.lean ====
section
/-!
DEFINITION. The load (43_initialization.md R101, R102) and the update multiplexer that chooses each cell's next value
(41_clock_update.md R81).
-/

namespace Sys2Proof.Machine

/-- The value LOAD gives cell `i` (43_initialization.md R100, R101). Should a defective wiring let the ranges overlap, a later
step of R100 wins: ones over IV over key (log entry 8). -/
def loadCell (w : Wiring) (key iv : Operand) (i : Nat) : Bool :=
  if i ∈ w.ones then true
  else if w.ivLo ≤ i ∧ i < w.ivLo + Config.operandBits then keyBit iv (i - w.ivLo)
  else if w.keyLo ≤ i ∧ i < w.keyLo + Config.operandBits then keyBit key (i - w.keyLo)
  else false

/-- The register with every cell given its load value, whatever it held before (43_initialization.md R101). -/
def loadReg (w : Wiring) (key iv : Operand) : Reg := ofCells Config.ncell (loadCell w key iv)

/-- `Load(K, V)` (43_initialization.md R101). -/
def load (key iv : Operand) : Reg := loadReg Config.wiring key iv

/-- The load positions, in the order of the steps of 43_initialization.md R100: key cells, IV cells, cells set to 1. -/
def loadPositions (w : Wiring) : List Nat :=
  (List.range' w.keyLo Config.operandBits) ++ (List.range' w.ivLo Config.operandBits) ++ w.ones

/-- The bounds check on a list of cells, the first bad one being reported (40_bit_addressing.md R70; log entry 7). -/
def checkCells : List Nat → Except Fault Unit
  | [] => .ok ()
  | i :: is =>
    match resolve i with
    | .error e => .error e
    | .ok _ => checkCells is

/-- LOAD on the register, for a wiring `w`; its positions go through the decoder's check (43_initialization.md R102). -/
def microLoad (w : Wiring) (key iv : Operand) : Except Fault Reg :=
  match checkCells (loadPositions w) with
  | .error e => .error e
  | .ok () => .ok (loadReg w key iv)

/-- The select of the update multiplexer, common to all cells (41_clock_update.md R81); LOAD carries the operands on the ports. -/
inductive Select where
  | hold
  | step
  | load (key iv : Operand)
deriving DecidableEq, Repr

/-- The next value of cell `i` under a select (41_clock_update.md R81). -/
def muxCell (sel : Select) (s : Reg) (i : Nat) : Bool :=
  match sel with
  | .hold => cell s i
  | .step =>
    if i = 1 then feedback3 (tapBits s)
    else if i = 94 then feedback1 (tapBits s)
    else if i = 178 then feedback2 (tapBits s)
    else cell s (i - 1)
  | .load key iv => loadCell Config.wiring key iv i

/-- The select the state machine drives, by phase and command (41_clock_update.md R81, 43_initialization.md R109). -/
def selectOf : Phase → Instr → Select
  | .uninit, .idle => .hold
  | .uninit, .init key iv => .load key iv
  | .uninit, .nextBit => .hold
  | .uninit, .nextByte => .hold
  | .warmup, _ => .step
  | .run, .idle => .hold
  | .run, .init key iv => .load key iv
  | .run, .nextBit => .step
  | .run, .nextByte => .step
  | .byte, _ => .step
  | .fault _, _ => .hold

end Sys2Proof.Machine
end

