-- ==== Sys2Proof/Machine/Sequencer.lean ====
section
/-!
DEFINITION. What the state machine does on an edge with `rst = 0`, shared by the commands (43_initialization.md R109, R110):
the clearing of `dout_valid`, the busy phases, the fault phase, and the entry into FAULT when a STEP or LOAD raises.
-/

namespace Sys2Proof.Machine

/-- A STEP on an edge, and the writes `k` that follow from its result; if it raises, the edge is undone and FAULT entered
(43_initialization.md R110, 60_exceptions.md R119). -/
def stepThen (w : Wiring) (s : State) (k : Reg → Bool → State) : State :=
  match microStep w s.reg with
  | .error e => takeFault e s
  | .ok (r, z) => k r z

/-- LOAD on an edge (43_initialization.md R102). -/
def loadEdge (w : Wiring) (key iv : Operand) (s : State) : State :=
  match microLoad w key iv with
  | .error e => takeFault e s
  | .ok r =>
    (((((((s.setReg r).setWcnt 0).setBcnt 0).setAcc 0).setDout 0).setDoutValid false).setPhase .warmup)

/-- An edge in phase WARMUP: one step, its output discarded (43_initialization.md R105). -/
def warmupEdge (w : Wiring) (s : State) : State :=
  stepThen w s fun r _ =>
    let s1 := (s.setReg r).setWcnt (s.wcnt + 1)
    if s.wcnt + 1 = 1152#11 then s1.setPhase .run else s1

/-- An edge in phase BYTE: one step, its bit kept in `acc`, and with the eighth bit the byte returned
(42_keystream_output.md R95). -/
def byteEdge (w : Wiring) (s : State) : State :=
  stepThen w s fun r z =>
    let bits := s.acc ||| (zext8 z <<< s.bcnt.toNat)
    if s.bcnt = 7#3 then
      (((((s.setReg r).setDout bits).setDoutValid true).setAcc 0).setBcnt 0).setPhase .run
    else ((s.setReg r).setAcc bits).setBcnt (s.bcnt + 1)

/-- One edge with `rst = 0` (43_initialization.md R110): `dout_valid` falls unless something below raises it; FAULT does
nothing, a busy phase takes its own step whatever the command is (60_exceptions.md R122), and in UNINIT and RUN the command
does what the two functions say. -/
def onEdge (w : Wiring) (s : State) (inUninit inRun : State → State) : State :=
  let s0 := s.setDoutValid false
  match s.phase with
  | .fault _ => s0
  | .uninit => inUninit s0
  | .warmup => warmupEdge w s0
  | .run => inRun s0
  | .byte => byteEdge w s0

end Sys2Proof.Machine
end

