-- ==== Sys2Proof/Machine/Initialization.lean ====
section
/-!
DEFINITION. The command INIT on one edge (43_initialization.md R102, R104, R105): accepted in UNINIT and in RUN, where the edge
performs LOAD; the warm-up is the edges that follow in phase WARMUP.
-/

namespace Sys2Proof.Machine

/-- INIT for a wiring `w` (43_initialization.md R105, R107). -/
def initEdge (w : Wiring) (key iv : Operand) (s : State) : State :=
  onEdge w s (loadEdge w key iv) (loadEdge w key iv)

/-- The meaning of INIT. -/
def execInit (key iv : Operand) (s : State) : Host.Outcome State Fault Refusal := .next (initEdge Config.wiring key iv s)

end Sys2Proof.Machine
end

