-- ==== Sys2Proof/Machine/Keystream.lean ====
section
/-!
DEFINITION. The keystream commands IDLE, NEXTBIT and NEXTBYTE on one edge (42_keystream_output.md). Where a command is not
acceptable it is dropped: the edge is that of an absent command (30_encoding.md R54).
-/

namespace Sys2Proof.Machine

/-- IDLE for a wiring `w` (42_keystream_output.md R97). -/
def idleEdge (w : Wiring) (s : State) : State := onEdge w s (fun s0 => s0) (fun s0 => s0)

/-- NEXTBIT for a wiring `w`: in RUN a step whose bit is returned, in UNINIT dropped (42_keystream_output.md R92). -/
def nextBitEdge (w : Wiring) (s : State) : State :=
  onEdge w s (fun s0 => s0) fun s0 =>
    stepThen w s0 fun r z => ((s0.setReg r).setDout (zext8 z)).setDoutValid true

/-- NEXTBYTE for a wiring `w`: in RUN the first of the eight steps, in UNINIT dropped (42_keystream_output.md R95). -/
def nextByteEdge (w : Wiring) (s : State) : State :=
  onEdge w s (fun s0 => s0) fun s0 =>
    stepThen w s0 fun r z => (((s0.setReg r).setAcc (zext8 z)).setBcnt 1).setPhase .byte

/-- The meaning of IDLE. -/
def execIdle (s : State) : Host.Outcome State Fault Refusal := .next (idleEdge Config.wiring s)

/-- The meaning of NEXTBIT. -/
def execNextBit (s : State) : Host.Outcome State Fault Refusal := .next (nextBitEdge Config.wiring s)

/-- The meaning of NEXTBYTE. -/
def execNextByte (s : State) : Host.Outcome State Fault Refusal := .next (nextByteEdge Config.wiring s)

end Sys2Proof.Machine
end

