-- ==== Sys2Proof/Machine/Dispatch.lean ====
section
/-!
DEFINITION. One arm per command: a clock edge with `rst = 0` on which the command is presented (43_initialization.md R110).
-/

namespace Sys2Proof.Machine

def exec (i : Instr) (s : State) : Host.Outcome State Fault Refusal :=
  match i with
  | .idle => Sys2Proof.Machine.execIdle s
  | .init key iv => Sys2Proof.Machine.execInit key iv s
  | .nextBit => Sys2Proof.Machine.execNextBit s
  | .nextByte => Sys2Proof.Machine.execNextByte s

end Sys2Proof.Machine
end

