-- ==== Sys2Proof/Machine/Step.lean ====
section
/-!
DEFINITION. One rising edge of `clk` (43_initialization.md R110): the ports are sampled, `rst` wins (60_exceptions.md R122), and
otherwise the decoded command is executed.
-/

namespace Sys2Proof.Machine

/-- One rising edge: `tick` of 43_initialization.md R110 on what the ports carry. -/
def step (s : State) : Host.Outcome State Fault Refusal :=
  let at0 := sample s
  if at0.1.rst then .next (resetEdge at0.2) else exec (decode at0.1) at0.2

/-- `s` with the table word `w` on the ports at the next edge, in place of the sample that stood there (log entries 3, 4). -/
def State.withFetchWord (s : State) (nbits w : Nat) : State := s.setPins (tablePins nbits w :: s.pins.tail)

end Sys2Proof.Machine
end

