-- ==== Sys2Proof/Machine/Operation.lean ====
section
/-!
DEFINITION. The operation level (00_scope.md R5, 10_state.md R30): one transition per command, which may return a value, and
the view of a cycle-level state between commands.
-/

namespace Sys2Proof.Machine

/-- `ophase` (10_state.md R30). -/
inductive OPhase where
  | uninit
  | run
  /-- a contract failure ended a command (60_exceptions.md R119) -/
  | fault (why : Fault)
deriving DecidableEq, Repr

/-- The operation-level state, the pair (`ophase`, `S`) (10_state.md R30). -/
structure OpState where
  ophase : OPhase
  reg : Reg
deriving DecidableEq, Repr

/-- The operation-level state after reset (10_state.md R29, R30). -/
def OpState.reset : OpState := { ophase := .uninit, reg := 0 }

/-- A returned value: the bit of a NEXTBIT or the byte of a NEXTBYTE (30_encoding.md R53). -/
inductive Value where
  | bit (z : Bool)
  | byte (b : Byte)
deriving DecidableEq, Repr

/-- The form in which the cycle level shows a value on `dout` (30_encoding.md R58). -/
def Value.onDout : Value → Byte
  | .bit z => zext8 z
  | .byte b => b

/-- The stream bits a value holds, in the order produced (42_keystream_output.md R96). -/
def Value.bits : Value → List Bool
  | .bit z => [z]
  | .byte b => (List.range 8).map b.getLsbD

/-- What a row of steps leaves: the register, the bits of the steps done, and the failure that ended it early, if one did. -/
structure StepsDone where
  reg : Reg
  bits : List Bool
  failed : Option Fault
deriving DecidableEq, Repr

/-- `n` steps in a row for a wiring `w`; the steps done before a failure stay taken (60_exceptions.md R119). -/
def opSteps (w : Wiring) : Nat → Reg → StepsDone
  | 0, s => { reg := s, bits := [], failed := none }
  | n + 1, s =>
    match microStep w s with
    | .error e => { reg := s, bits := [], failed := some e }
    | .ok (s', z) =>
      let rest := opSteps w n s'
      { rest with bits := z :: rest.bits }

/-- The phase a command on a live generator ends in. -/
def opPhaseAfter : Option Fault → OPhase
  | none => .run
  | some e => .fault e

/-- INIT as one transition: load, then 1152 steps with their outputs dropped (43_initialization.md R104). -/
def opInit (w : Wiring) (key iv : Operand) (s : OpState) : OpState × Option Value :=
  match microLoad w key iv with
  | .error e => ({ s with ophase := .fault e }, none)
  | .ok r =>
    let done := opSteps w Config.nwarm r
    ({ ophase := opPhaseAfter done.failed, reg := done.reg }, none)

/-- NEXTBIT as one transition on a live generator (42_keystream_output.md R91). -/
def opNextBit (w : Wiring) (s : OpState) : OpState × Option Value :=
  match microStep w s.reg with
  | .error e => ({ s with ophase := .fault e }, none)
  | .ok (r, z) => ({ ophase := .run, reg := r }, some (.bit z))

/-- NEXTBYTE as one transition on a live generator: eight steps, packed least significant first (42_keystream_output.md
R94); a failure in one of them returns no byte. -/
def opNextByte (w : Wiring) (s : OpState) : OpState × Option Value :=
  let done := opSteps w Config.byteBits s.reg
  ({ ophase := opPhaseAfter done.failed, reg := done.reg },
    if done.failed = none then some (.byte (packFrom 0 done.bits)) else none)

/-- A command at the operation level; one not acceptable in the present phase is dropped (30_encoding.md R54). -/
def opExec (w : Wiring) (i : Instr) (s : OpState) : OpState × Option Value :=
  match s.ophase, i with
  | .uninit, .idle => (s, none)
  | .uninit, .init key iv => opInit w key iv s
  | .uninit, .nextBit => (s, none)
  | .uninit, .nextByte => (s, none)
  | .run, .idle => (s, none)
  | .run, .init key iv => opInit w key iv s
  | .run, .nextBit => opNextBit w s
  | .run, .nextByte => opNextByte w s
  | .fault _, _ => (s, none)

/-- A sequence of commands at the operation level, with the values returned, in order (70_reset_and_hazards.md R148). -/
def opRun (w : Wiring) : List Instr → OpState → OpState × List Value
  | [], s => (s, [])
  | i :: is, s =>
    let now := opExec w i s
    let rest := opRun w is now.1
    (rest.1, now.2.toList ++ rest.2)

/-- The cycle-level phase of the same name, so that "`ophase = phase`" can be said (10_state.md R30). -/
def OPhase.toPhase : OPhase → Phase
  | .uninit => .uninit
  | .run => .run
  | .fault e => .fault e

/-- What a cycle-level state is at the operation level (10_state.md R30). -/
inductive OpView where
  /-- between commands: an operation-level state -/
  | between (o : OpState)
  /-- the image of WARMUP, "INIT in progress" -/
  | initInProgress
  /-- the image of BYTE, "NEXTBYTE in progress" -/
  | nextByteInProgress
deriving DecidableEq, Repr

/-- The map from the cycle level to the operation level (10_state.md R30). -/
def State.opView (s : State) : OpView :=
  match s.phase with
  | .uninit => .between { ophase := .uninit, reg := s.reg }
  | .warmup => .initInProgress
  | .run => .between { ophase := .run, reg := s.reg }
  | .byte => .nextByteInProgress
  | .fault e => .between { ophase := .fault e, reg := s.reg }

end Sys2Proof.Machine
end

