-- ==== Sys2Proof/Machine/Program.lean ====
section
/-!
DEFINITION. Runs of several edges, the written form of a command sequence with its pseudo-commands (30_encoding.md R62, R63),
and how a host drives the ports with it: a line is presented at the first edge with `ready = 1` after the previous one, and
every value flagged by `dout_valid` is read.
-/

namespace Sys2Proof.Machine

/-- `n` rising edges in a row, on whatever the ports carry; it stops at the first step that answers no next state. -/
def edges : Nat → State → Host.Outcome State Fault Refusal
  | 0, s => .next s
  | n + 1, s =>
    match step s with
    | .next t => edges n t
    | .fault r => .fault r
    | .refused r => .refused r

/-- A line of a program (30_encoding.md R62, R63). -/
inductive Line where
  | reset
  | command (i : Instr)
  | nextBytes (n : Nat)
  | nextBits (n : Nat)
  | wait (n : Nat)
  | now (i : Instr)
deriving DecidableEq, Repr

/-- What the host does at the ports for one core line. -/
inductive Act where
  /-- hold `rst = 1` over one edge -/
  | reset
  /-- present the command at the first edge with `ready = 1` -/
  | whenReady (i : Instr)
  /-- present the command at the next edge -/
  | atOnce (i : Instr)
deriving DecidableEq, Repr

/-- The expansion of a line (30_encoding.md R63). -/
def Line.expand : Line → List Act
  | .reset => [.reset]
  | .command i => [.whenReady i]
  | .nextBytes n => List.replicate n (.whenReady .nextByte)
  | .nextBits n => List.replicate n (.whenReady .nextBit)
  | .wait n => List.replicate n (.atOnce .idle)
  | .now i => [.atOnce i]

/-- One edge with `p` on the ports, reading `dout` if the edge flagged a value (10_state.md R23). -/
def drive (p : Pins) (r : State × List Byte) : Option (State × List Byte) :=
  match step (r.1.setPins (p :: r.1.pins)) with
  | .next t => some (t, if t.doutValid then r.2 ++ [t.dout] else r.2)
  | .fault _ => none
  | .refused _ => none

/-- Quiet edges until the engine is ready or has faulted, at most `fuel` of them; 1152 suffice (70_reset_and_hazards.md R146;
log entry 12). -/
def driveUntilReady : (fuel : Nat) → State × List Byte → Option (State × List Byte)
  | 0, r => some r
  | fuel + 1, r =>
    if r.1.ready || r.1.faultFlag then some r else (drive Pins.quiet r).bind (driveUntilReady fuel)

/-- One act of the host. -/
def driveAct (a : Act) (r : State × List Byte) : Option (State × List Byte) :=
  match a with
  | .reset => drive { Pins.quiet with rst := true } r
  | .whenReady i => (driveUntilReady Config.nwarm r).bind (drive (encode i))
  | .atOnce i => drive (encode i) r

/-- The acts of the host, in order. -/
def driveActs : List Act → State × List Byte → Option (State × List Byte)
  | [], r => some r
  | a :: as, r => (driveAct a r).bind (driveActs as)

/-- A run of a program: its acts, then quiet edges until the last command has completed (70_reset_and_hazards.md R149). It
gives the end state and the values returned, in order. -/
def runProgram (lines : List Line) (s : State) : Option (State × List Byte) :=
  (driveActs (lines.flatMap Line.expand) (s, [])).bind (driveUntilReady Config.nwarm)

end Sys2Proof.Machine
end

