-- ==== Sys2Proof/Safety.lean ====
section
/-!
DEFINITION. What claims about the engine are stated in: the invariant of its registers, runs without a reset, the edge that
completes a command, and the first defective index of a list.
-/

namespace Sys2Proof

open Sys2Proof.Machine

/-- What the registers satisfy in every state a run from reset reaches, phase by phase (10_state.md R19 to R23, R29,
60_exceptions.md R120, R127, R128). -/
def Consistent (s : State) : Prop :=
  match s.phase with
  | .uninit => s = State.reset.setPins s.pins
  | .warmup => s.wcnt.toNat < 1152 ∧ s.bcnt = 0 ∧ s.acc = 0 ∧ s.dout = 0 ∧ s.doutValid = false
  | .run => s.wcnt = 1152#11 ∧ s.bcnt = 0 ∧ s.acc = 0
  | .byte => s.wcnt = 1152#11 ∧ s.bcnt ≠ 0 ∧ s.acc >>> s.bcnt.toNat = 0 ∧ s.doutValid = false
  | .fault _ => s.wcnt.toNat ≤ 1152 ∧ s.doutValid = false

/-- The host keeps `rst` low on every one of these edges. -/
def NoReset (ps : List Pins) : Prop := ∀ p ∈ ps, p.rst = false

/-- The coming edge completes a NEXTBIT or a NEXTBYTE (10_state.md R23): `rst` is low, and either a NEXTBIT is presented in RUN,
or the eighth step of a byte is due. -/
def completesValue (s : State) : Bool :=
  !(sample s).1.rst
    && ((decide (s.phase = .run) && decide (decode (sample s).1 = .nextBit)) || (decide (s.phase = .byte) && decide (s.bcnt = 7)))

/-- The coming edge performs LOAD: `rst` is low and an INIT is presented in UNINIT or RUN (43_initialization.md R102). -/
def loadsKey (s : State) : Bool :=
  !(sample s).1.rst && (decide ((sample s).1.cmd = 1) && s.ready)

/-- `i` is the first cell number of the list that the decoder's check refuses (60_exceptions.md R123). -/
def FirstIllegal (cells : List Nat) (i : Nat) : Prop :=
  ∃ before after, cells = before ++ i :: after ∧ (∀ j ∈ before, legalCell j = true) ∧ legalCell i = false

/-- The state a fault at cell `i` leaves (60_exceptions.md R119): everything as before the edge, but `dout_valid` low and the
phase FAULT. -/
def faultedAt (i : Nat) (s : State) : State := { s with doutValid := false, phase := .fault (.contractFailure i) }

/-- The document's test obligations on the decoder (40_bit_addressing.md R75), with the values of vectors AD1 to AD8 of
95_test_vectors.md 2.1: an index and what RESOLVE must answer for it. -/
def decoderTests : List (Nat × Except Fault (Nat × Nat)) :=
  [(1, .ok (0, 63)), (64, .ok (0, 0)), (65, .ok (1, 63)), (93, .ok (1, 35)), (94, .ok (1, 34)), (288, .ok (4, 32)),
    (0, .error (.contractFailure 0)), (289, .error (.contractFailure 289))]

/-- How many of the cells in a list hold 1. -/
def onesAmong (s : Reg) (cells : List Nat) : Nat := cells.countP (cell s)

/-- The stream bits of a list of returned values, in the order produced (42_keystream_output.md R96). -/
def streamBits (vs : List Value) : List Bool := vs.flatMap Value.bits

/-- A command that only draws keystream (42_keystream_output.md R96). -/
def drawsOnly : Instr → Bool
  | .idle => false
  | .init _ _ => false
  | .nextBit => true
  | .nextByte => true

/-- How many stream bits a drawing command takes (42_keystream_output.md R91, R94). -/
def drawnBits : Instr → Nat
  | .idle => 0
  | .init _ _ => 0
  | .nextBit => 1
  | .nextByte => 8

end Sys2Proof
end

