-- ==== Sys2Proof/Certificates/Slice0/Obligations.lean ====
section
/-!
DEFINITION. The statements for the provers, from the numbered rules of spec/. Where a rule is the spec's own decision (a
`[decision: ...]` mark), the docstring names it.
-/

open Sys2Proof Sys2Proof.Machine

/-! ## Interface and decoding (30_encoding.md) -/

/-- R64 (decision D3): the two bits of `cmd` select the command, and `key` and `iv` matter only for an accepted INIT. -/
def Obligations.CommandCodes : Prop :=
  (∀ p : Pins, (p.cmd = 0b00 → decode p = .idle) ∧ (p.cmd = 0b01 → decode p = .init p.key p.iv) ∧
    (p.cmd = 0b10 → decode p = .nextBit) ∧ (p.cmd = 0b11 → decode p = .nextByte)) ∧
  (∀ (s : State) (k v k' v' : Operand), accepts s.phase (.init k v) = false → exec (.init k v) s = exec (.init k' v') s)

/-- R52, R53 (decision D3): the decoder gives back every command that was encoded, with `rst` low, and an INIT keeps all 160
operand bits. -/
def Obligations.DecodeAfterEncode : Prop :=
  ∀ i : Instr, decode (encode i) = i ∧ (encode i).rst = false ∧
    ∀ k v, i = .init k v → (encode i).key = k ∧ (encode i).iv = v

/-- R53: the four codes of the opcode table, and the first step after reset runs the command presented (log entries 3, 4: the
numbering of the operand bits of a table word is the model's choice). -/
def Obligations.TableWords : Prop :=
  decodeTableWord 2 0 = some .idle ∧ decodeTableWord 2 1 = some (.init 0 0) ∧ decodeTableWord 2 2 = some .nextBit ∧
  decodeTableWord 2 3 = some .nextByte ∧ decodeTableWord 8 3 = some .nextByte ∧ decodeTableWord 8 4 = none ∧
  ∀ (s : State) (nbits w : Nat) (i : Instr), decodeTableWord nbits w = some i →
    step (s.withFetchWord nbits w) = exec i (s.setPins s.pins.tail)

/-- R49, R64, R110: with `rst` low a step samples the ports and is `exec` of the decoded command on the state with that sample
used up; with no sample left the ports are quiet and the command is IDLE (log entry 2, the model's choice). -/
def Obligations.StepRunsTheDecodedCommand : Prop :=
  ∀ (s : State) (p : Pins) (ps : List Pins),
    (p.rst = false → step (s.setPins (p :: ps)) = exec (decode p) (s.setPins ps)) ∧
    step (s.setPins []) = exec .idle (s.setPins []) ∧
    ∀ i : Instr, i.wellFormed = true → step (s.setPins (encode i :: ps)) = exec i (s.setPins ps)

/-- R55, R56 (decision D4), R35: operand byte `j` is port bits 79 - 8j down to 72 - 8j, and operand bit `n` is port bit 79 - n,
most significant bit of byte 0 first. -/
def Obligations.OperandBitOrder : Prop :=
  ∀ x : Operand,
    (∀ j b, j < 10 → b < 8 → (operandByte x j).getLsbD b = x.getLsbD (72 - 8 * j + b)) ∧
    (∀ n, n < 80 → keyBit x n = (operandByte x (n / 8)).getLsbD (7 - n % 8)) ∧
    (∀ n, n < 80 → keyBit x n = x.getLsbD (79 - n))

/-- R116 (decision D16): a byte-string front refuses a wrong length by name, key first, and otherwise lays byte `j` of each
operand at byte `j` of its port. -/
def Obligations.ByteStringInit : Prop :=
  ∀ ks vs : List Byte,
    (ks.length ≠ 10 → initOfBytes ks vs = .error .invalidKeyLength) ∧
    (ks.length = 10 → vs.length ≠ 10 → initOfBytes ks vs = .error .invalidIVLength) ∧
    (ks.length = 10 → vs.length = 10 → ∃ k v, initOfBytes ks vs = .ok (.init k v) ∧
      ∀ j, j < 10 → ks[j]? = some (operandByte k j) ∧ vs[j]? = some (operandByte v j))

/-- R54 (decisions D10, D11): what each phase accepts, on an edge with `rst` low only; a command that is dropped acts as an
absent one (log entry 6), and one that is accepted, IDLE apart, starts what it stands for. -/
def Obligations.AcceptanceTable : Prop :=
  ∀ (s : State) (i : Instr),
    (accepts s.phase i = true ↔
      (s.phase = .run ∨ (s.phase = .uninit ∧ (i = .idle ∨ ∃ k v, i = .init k v)))) ∧
    (accepts s.phase i = false → exec i s = exec .idle s) ∧
    (accepts s.phase i = true → ∃ t, exec i s = .next t ∧
      (∀ k v, i = .init k v → t.phase = .warmup ∧ t.reg = load k v) ∧
      (i = .nextBit → t.doutValid = true) ∧ (i = .nextByte → t.phase = .byte) ∧
      (i = .idle → t = s.setDoutValid false)) ∧
    (∀ p ps, decode p = i →
      (p.rst = false → step (s.setPins (p :: ps)) = exec i (s.setPins ps)) ∧
      (p.rst = true → step (s.setPins (p :: ps)) = step (s.setPins ({ Pins.quiet with rst := true } :: ps))))

/-! ## State, status and frames (10_state.md) -/

/-- R133 (decision D6), the values of R29: an edge with `rst` high gives the reset state whatever stood before, power-on or the
middle of a command; the register is then a fixed point of the step with output 0, and no command can draw from it. -/
def Obligations.ResetGivesTheResetState : Prop :=
  (∀ (s : State) (p : Pins) (ps : List Pins), p.rst = true → step (s.setPins (p :: ps)) = .next (State.reset.setPins ps)) ∧
  (State.reset.reg = 0 ∧ State.reset.phase = .uninit ∧ State.reset.wcnt = 0 ∧ State.reset.bcnt = 0 ∧ State.reset.acc = 0 ∧
    State.reset.dout = 0 ∧ State.reset.doutValid = false ∧ State.reset.ready = true ∧ State.reset.faultFlag = false) ∧
  clockStep State.reset.reg = (State.reset.reg, false) ∧
  ∀ ps, exec .nextBit (State.reset.setPins ps) = .next (State.reset.setPins ps) ∧
    exec .nextByte (State.reset.setPins ps) = .next (State.reset.setPins ps)

/-- R24 (decision D2), R25 (decision D9): the two derived outputs; an engine that is not ready accepts nothing and one that is
accepts an INIT. -/
def Obligations.StatusOutputs : Prop :=
  ∀ s : State,
    (s.ready = true ↔ s.phase = .uninit ∨ s.phase = .run) ∧
    (s.faultFlag = true ↔ ∃ e, s.phase = .fault e) ∧
    (∀ k v, accepts s.phase (.init k v) = s.ready) ∧
    (s.ready = false → ∀ i, accepts s.phase i = false)

/-- R23 (decision D13): after an edge `dout_valid` is 1 exactly when that edge completed a NEXTBIT or a NEXTBYTE. -/
def Obligations.DoutValidIsOnePulsePerValue : Prop :=
  ∀ s t : State, step s = .next t → t.doutValid = completesValue s

/-- R22 (decision D13): who writes `dout`, and that nothing else does. -/
def Obligations.DoutWriters : Prop :=
  ∀ s t : State, step s = .next t →
    ((sample s).1.rst = true → t.dout = 0) ∧
    (loadsKey s = true → t.dout = 0) ∧
    (completesValue s = true → s.phase = .run → t.dout = zext8 (clockStep s.reg).2) ∧
    (completesValue s = true → s.phase = .byte → t.dout = s.acc ||| (zext8 (clockStep s.reg).2 <<< 7)) ∧
    ((sample s).1.rst = false → loadsKey s = false → completesValue s = false → t.dout = s.dout)

/-- R81 (decision D7): on an edge with `rst` low the next value of every cell is the multiplexer's, under HOLD, STEP or LOAD as
the phase and the command say; reset overrides it and there is no other source. -/
def Obligations.UpdateMultiplexer : Prop :=
  ∀ s t : State, step s = .next t →
    let i := decode (sample s).1
    let select := selectOf s.phase i
    ((sample s).1.rst = true → t.reg = 0) ∧
    ((sample s).1.rst = false → (∀ c, 1 ≤ c → c ≤ 288 → cell t.reg c = muxCell select s.reg c) ∧
      (s.phase = .warmup ∨ s.phase = .byte ∨ (s.phase = .run ∧ (i = .nextBit ∨ i = .nextByte)) → select = .step) ∧
      (∀ k v, s.ready = true → i = .init k v → select = .load k v) ∧
      (s.faultFlag = true ∨ (s.phase = .uninit ∧ ∀ k v, i ≠ .init k v) ∨ (s.phase = .run ∧ i = .idle) → select = .hold))

/-- R28: the frames of the four commands. What each form leaves unchanged when exec gives a next state, the register cell by
cell where no step and no load happens. -/
def Obligations.CommandFrames : Prop :=
  ∀ (s t : State) (i : Instr), exec i s = .next t →
    t.pins = s.pins ∧
    ((i = .idle ∨ accepts s.phase i = false) → s.ready = true →
      t.phase = s.phase ∧ t.wcnt = s.wcnt ∧ t.bcnt = s.bcnt ∧ t.acc = s.acc ∧ t.dout = s.dout ∧
        ∀ c, cell t.reg c = cell s.reg c) ∧
    (i = .nextBit → s.phase = .run → t.phase = s.phase ∧ t.wcnt = s.wcnt ∧ t.bcnt = s.bcnt ∧ t.acc = s.acc) ∧
    (i = .nextByte → s.phase = .run → t.wcnt = s.wcnt ∧ t.dout = s.dout) ∧
    (s.phase = .warmup → t.bcnt = s.bcnt ∧ t.acc = s.acc ∧ t.dout = s.dout) ∧
    (s.phase = .byte → t.wcnt = s.wcnt) ∧
    (s.faultFlag = true → t = s.setDoutValid false)

/-- R109 (decision D5): the phase after an edge with `rst` low, by phase and command, in an engine with the real wiring. -/
def Obligations.PhaseTransitions : Prop :=
  ∀ (s : State) (i : Instr), ∃ t, exec i s = .next t ∧
    match s.phase, i with
    | .uninit, .init _ _ => t.phase = .warmup
    | .uninit, _ => t.phase = .uninit
    | .warmup, _ => t.phase = if s.wcnt + 1 = 1152#11 then .run else .warmup
    | .run, .init _ _ => t.phase = .warmup
    | .run, .nextByte => t.phase = .byte
    | .run, _ => t.phase = .run
    | .byte, _ => t.phase = if s.bcnt = 7 then .run else .byte
    | .fault e, _ => t.phase = .fault e

/-- R19, R20 (decision D14): the two counters and what moves them. -/
def Obligations.CounterRules : Prop :=
  ∀ s t : State, Consistent s → step s = .next t →
    ((sample s).1.rst = true ∨ loadsKey s = true → t.wcnt = 0 ∧ t.bcnt = 0) ∧
    ((sample s).1.rst = false → s.phase = .warmup →
      t.wcnt.toNat = s.wcnt.toNat + 1 ∧ (t.phase = .run ↔ t.wcnt.toNat = 1152)) ∧
    ((sample s).1.rst = false → loadsKey s = false → s.phase ≠ .warmup → t.wcnt = s.wcnt) ∧
    ((sample s).1.rst = false → s.phase = .run → decode (sample s).1 = .nextByte → t.bcnt = 1) ∧
    ((sample s).1.rst = false → s.phase = .byte → s.bcnt.toNat < 7 → t.bcnt.toNat = s.bcnt.toNat + 1) ∧
    ((sample s).1.rst = false → s.phase = .byte → s.bcnt = 7 → t.bcnt = 0) ∧
    ((sample s).1.rst = false → loadsKey s = false → s.phase ≠ .byte →
      ¬(s.phase = .run ∧ decode (sample s).1 = .nextByte) → t.bcnt = s.bcnt)

/-- The invariant of the registers holds in the reset state. -/
def Obligations.InvariantAtReset : Prop := Consistent State.reset

/-- R19 to R23, R29, R120, R127, R128: every step, whatever the ports carry, keeps the invariant of the registers. -/
def Obligations.InvariantKeptByEveryStep : Prop :=
  ∀ s t : State, Consistent s → step s = .next t → Consistent t

/-! ## Bit addressing (40_bit_addressing.md, 20_memory.md) -/

/-- R70: the legal range of an index, above it and below it; R67: the word and the offset, and its corner cases. -/
def Obligations.ResolveDecoder : Prop :=
  (∀ i, i < 1 ∨ 288 < i → resolve i = .error (.contractFailure i)) ∧
  (∀ i, 1 ≤ i → i ≤ 288 → resolve i = .ok ((i - 1) / 64, 63 - (i - 1) % 64)) ∧
  (resolve 1 = .ok (0, 63) ∧ resolve 64 = .ok (0, 0) ∧ resolve 65 = .ok (1, 63) ∧ resolve 93 = .ok (1, 35) ∧
    resolve 288 = .ok (4, 32) ∧ resolve 0 = .error (.contractFailure 0) ∧ resolve 289 = .error (.contractFailure 289))

/-- R75: the document's tests of the decoder, with the values of vectors AD1 to AD8, on RESOLVE, GETBIT and SETBIT: cells 1 and
288 resolve, and are read and written where they resolve; 0 and 289 take the contract-failure path, reading and writing
nothing. -/
def Obligations.DecoderBoundaryTests : Prop :=
  (∀ test ∈ decoderTests, resolve test.1 = test.2) ∧
  ∀ s : Reg,
    (∀ i ∈ [1, 288], getBit s i = .ok (cell s i) ∧
      ∀ v, ∃ r, setBit s i v = .ok r ∧ getBit r i = .ok v ∧ ∀ j, 1 ≤ j → j ≤ 288 → j ≠ i → cell r j = cell s j) ∧
    (∀ i ∈ [0, 289], getBit s i = .error (.contractFailure i) ∧ ∀ v, setBit s i v = .error (.contractFailure i))

/-- R67 (the sentence it marks "derived: from the formula"), R45: RESOLVE is a one-to-one map from the cell numbers onto the
non-pad positions. -/
def Obligations.ResolveIsABijection : Prop :=
  (∀ i j w o, resolve i = .ok (w, o) → resolve j = .ok (w, o) → i = j) ∧
  (∀ w o, (∃ i, resolve i = .ok (w, o)) ↔ w ≤ 4 ∧ o ≤ 63 ∧ (w = 4 → 32 ≤ o))

/-- R73 (decision D8): the decoder as a circuit on nine bits, and GETBIT as a gated 288-to-1 multiplexer. -/
def Obligations.DecoderCircuit : Prop :=
  ∀ idx : BitVec 9,
    (decoderOk idx = true ↔ 1 ≤ idx.toNat ∧ idx.toNat ≤ 288) ∧
    (decoderOk idx = true → resolve idx.toNat = .ok ((decoderWord idx).toNat, (decoderOffset idx).toNat)) ∧
    (decoderOk idx = false → resolve idx.toNat = .error (.contractFailure idx.toNat)) ∧
    (∀ i, decoderSel idx i = true ↔ idx.toNat = i) ∧
    ∀ s : Reg, (decoderOk idx = true → getBit s idx.toNat = .ok (getBitCircuit s idx)) ∧
      (decoderOk idx = false → getBitCircuit s idx = false) ∧
      ∀ v, decoderOk idx = true → ∃ r, setBit s idx.toNat v = .ok r ∧
        ∀ i, 1 ≤ i → i ≤ 288 → cell r i = if decoderSel idx i then v else cell s i

/-- R15 (decision D7): the word view of a register, cell by cell, and 0 where no cell resolves to. -/
def Obligations.WordView : Prop :=
  ∀ s : Reg,
    (∀ i k o, resolve i = .ok (k, o) → (word s k).getLsbD o = cell s i) ∧
    (∀ k o, k ≤ 4 → (¬∃ i, resolve i = .ok (k, o)) → (word s k).getLsbD o = false) ∧
    (∀ i, (1 ≤ i → i ≤ 64 → (word s 0).getLsbD (64 - i) = cell s i) ∧
      (65 ≤ i → i ≤ 128 → (word s 1).getLsbD (128 - i) = cell s i) ∧
      (129 ≤ i → i ≤ 192 → (word s 2).getLsbD (192 - i) = cell s i) ∧
      (193 ≤ i → i ≤ 256 → (word s 3).getLsbD (256 - i) = cell s i) ∧
      (257 ≤ i → i ≤ 288 → (word s 4).getLsbD (320 - i) = cell s i))

/-- R33 (the sentence it marks "derived: from 40_bit_addressing.md rule R67"), R16: the 320-bit string of a register, cell by
cell, with the 32 pad bits always 0. -/
def Obligations.StringView : Prop :=
  ∀ s : Reg,
    storage s = word s 0 ++ word s 1 ++ word s 2 ++ word s 3 ++ word s 4 ∧
    (∀ i, 1 ≤ i → i ≤ 288 → (storage s).getLsbD (320 - i) = cell s i) ∧
    (∀ o, o < 32 → (storage s).getLsbD o = false ∧ (word s 4).getLsbD o = false)

/-- R68: GETBIT gives the cell, by shifting its word right by the offset, and reads nothing outside 1..288. -/
def Obligations.GetBitReadsTheCell : Prop :=
  ∀ (s : Reg) (i : Nat),
    (1 ≤ i → i ≤ 288 → getBit s i = .ok (cell s i)) ∧
    (∀ w o, resolve i = .ok (w, o) → getBit s i = .ok ((word s w >>> o).getLsbD 0)) ∧
    (i < 1 ∨ 288 < i → getBit s i = .error (.contractFailure i)) ∧
    (∀ k, (k ≤ 4 → wordAt s i k = .ok (word s k)) ∧ (4 < k → wordAt s i k = .error (.contractFailure i)))

/-- R69, R40, R42: SETBIT writes its cell and no other, which in words is a mask and an OR on one word; writing twice is
writing once; an index outside 1..288 writes nothing. -/
def Obligations.SetBitWritesOneCell : Prop :=
  ∀ (s : Reg) (i : Nat) (v : Bool),
    (i < 1 ∨ 288 < i → setBit s i v = .error (.contractFailure i)) ∧
    (1 ≤ i → i ≤ 288 → ∃ r, setBit s i v = .ok r ∧
      (∀ j, 1 ≤ j → j ≤ 288 → cell r j = if j = i then v else cell s j) ∧
      (∀ w o, resolve i = .ok (w, o) →
        word r w = (word s w &&& ~~~(1#64 <<< o)) ||| (bitWord v <<< o) ∧ ∀ k, k ≤ 4 → k ≠ w → word r k = word s k) ∧
      setBit r i v = .ok r ∧ (v = cell s i → r = s))

/-! ## Clock update (41_clock_update.md) -/

/-- R78, R79, R80: the output bit, the three feedback bits and the shift, for every register, and STEP through the decoder
gives them. -/
def Obligations.StepFormula : Prop :=
  ∀ s : Reg, ∃ r z, microStep Config.wiring s = .ok (r, z) ∧ clockStep s = (r, z) ∧
    z = (cell s 66 ^^ cell s 93 ^^ cell s 162 ^^ cell s 177 ^^ cell s 243 ^^ cell s 288) ∧
    cell r 94 = (cell s 66 ^^ cell s 93 ^^ (cell s 91 && cell s 92) ^^ cell s 171) ∧
    cell r 178 = (cell s 162 ^^ cell s 177 ^^ (cell s 175 && cell s 176) ^^ cell s 264) ∧
    cell r 1 = (cell s 243 ^^ cell s 288 ^^ (cell s 286 && cell s 287) ^^ cell s 69) ∧
    ∀ i, 2 ≤ i → i ≤ 288 → i ≠ 94 → i ≠ 178 → cell r i = cell s (i - 1)

/-- R86, R85: one shift of the 320-bit string, three overwrites and the pad bit cleared is the step, on every register. -/
def Obligations.WordLevelStep : Prop :=
  ∀ s : Reg, stringStep (storage s) = (storage (clockStep s).1, (clockStep s).2)

/-- R88: the software splice with SETBIT is the step, on every register. -/
def Obligations.SpliceIsTheStep : Prop := ∀ s : Reg, spliceStep s = .ok (clockStep s)

/-- R89 (b): no two registers step to the same one, every register is stepped to, and the three dropped cells are recovered
from the next register. -/
def Obligations.StepIsABijection : Prop :=
  Function.Bijective (fun s : Reg => (clockStep s).1) ∧
  ∀ s : Reg, let r := (clockStep s).1
    cell s 93 = (cell r 94 ^^ cell r 67 ^^ (cell r 92 && cell r 93) ^^ cell r 172) ∧
    cell s 177 = (cell r 178 ^^ cell r 163 ^^ (cell r 176 && cell r 177) ^^ cell r 265) ∧
    cell s 288 = (cell r 1 ^^ cell r 244 ^^ (cell r 287 && cell r 288) ^^ cell r 70)

/-- R89 (c): the output bit is linear; each feedback bit is of degree 2, that is, its third difference vanishes on every
triple of registers and its second difference does not on some pair. -/
def Obligations.XorTreeDegrees : Prop :=
  (∀ a b : Reg, (clockStep (a ^^^ b)).2 = ((clockStep a).2 ^^ (clockStep b).2)) ∧
  ∀ f ∈ [feedback1, feedback2, feedback3],
    (∀ a b c : Reg, (f (tapBits (a ^^^ b ^^^ c)) ^^ f (tapBits (a ^^^ b)) ^^ f (tapBits (a ^^^ c)) ^^ f (tapBits (b ^^^ c)) ^^
      f (tapBits a) ^^ f (tapBits b) ^^ f (tapBits c) ^^ f (tapBits 0)) = false) ∧
    ∃ a b : Reg, (f (tapBits (a ^^^ b)) ^^ f (tapBits a) ^^ f (tapBits b) ^^ f (tapBits 0)) = true

/-- R89 (d): a cell outside the fifteen taps affects no output and no feedback bit of this step; it moves one place up. -/
def Obligations.OnlyTheTapsMatter : Prop :=
  ∀ (s : Reg) (i : Nat) (v : Bool) (r : Reg), 1 ≤ i → i ≤ 288 → i ∉ Config.wiring.taps.toList → setBit s i v = .ok r →
    (clockStep r).2 = (clockStep s).2 ∧ setBit (clockStep s).1 (i + 1) v = .ok (clockStep r).1

/-! ## Load and INIT (43_initialization.md) -/

/-- R101: every cell of the load, bit by bit and byte by byte, and the count of its ones. -/
def Obligations.LoadCells : Prop :=
  ∀ k v : Operand,
    microLoad Config.wiring k v = .ok (load k v) ∧
    (∀ n, n < 80 → cell (load k v) (n + 1) = keyBit k n) ∧
    (∀ i, 81 ≤ i → i ≤ 93 → cell (load k v) i = false) ∧
    (∀ n, n < 80 → cell (load k v) (94 + n) = keyBit v n) ∧
    (∀ i, 174 ≤ i → i ≤ 285 → cell (load k v) i = false) ∧
    (∀ i, 286 ≤ i → i ≤ 288 → cell (load k v) i = true) ∧
    (∀ j b, j < 10 → b < 8 → cell (load k v) (8 * j + b + 1) = (operandByte k j).getLsbD (7 - b) ∧
      cell (load k v) (94 + 8 * j + b) = (operandByte v j).getLsbD (7 - b)) ∧
    onesAmong (load k v) (List.range' 1 288) = 3 + (List.range 80).countP (keyBit k) + (List.range 80).countP (keyBit v) ∧
    (word (load 0 0) 0 = 0 ∧ word (load 0 0) 1 = 0 ∧ word (load 0 0) 2 = 0 ∧ word (load 0 0) 3 = 0 ∧
      word (load 0 0) 4 = 0x0000000700000000)

/-- R101 (the sentence in port terms, marked "derived: from 30_encoding.md rules R55 and R56"), R38, R43: the load in port bits
and in words, with IV byte 4 across the boundary of words 1 and 2. -/
def Obligations.LoadInWords : Prop :=
  ∀ k v : Operand,
    (∀ i, 1 ≤ i → i ≤ 80 → cell (load k v) i = k.getLsbD (80 - i)) ∧
    (∀ i, 94 ≤ i → i ≤ 173 → cell (load k v) i = v.getLsbD (173 - i)) ∧
    word (load k v) 0 = k.extractLsb' 16 64 ∧
    word (load k v) 1 = k.extractLsb' 0 16 ++ 0#13 ++ v.extractLsb' 45 35 ∧
    word (load k v) 2 = v.extractLsb' 0 45 ++ 0#19 ∧
    word (load k v) 3 = 0 ∧ word (load k v) 4 = 0x0000000700000000 ∧
    (word (load k v) 1).extractLsb' 0 3 = (operandByte v 4).extractLsb' 5 3 ∧
    (word (load k v) 2).extractLsb' 59 5 = (operandByte v 4).extractLsb' 0 5

/-- R102 (decisions D12, D13, D19), R104: INIT completes its accepting edge from every state in UNINIT or RUN, with every
register as LOAD gives it. -/
def Obligations.InitLoads : Prop :=
  ∀ (s : State) (k v : Operand), s.phase = .uninit ∨ s.phase = .run →
    exec (.init k v) s = .next
      { reg := load k v, phase := .warmup, wcnt := 0, bcnt := 0, acc := 0, dout := 0, doutValid := false, pins := s.pins }

/-- R105 (decisions D12, D14), R103: the accepting edge, then 1152 warm-up edges whatever `cmd`, `key` and `iv` carry; after
`n` of them the register is Step^n of the load, `ready` is 0 until the last, and then every command is accepted and `wcnt`
stays 1152. -/
def Obligations.InitOver1153Edges : Prop :=
  ∀ (s : State) (k v : Operand) (qs rest : List Pins) (n : Nat), s.phase = .uninit ∨ s.phase = .run →
    qs.length = 1152 → NoReset qs → n ≤ 1152 →
    ∃ t, edges (n + 1) (s.setPins (encode (.init k v) :: (qs ++ rest))) = .next t ∧
      t = { reg := stepMany n (load k v), phase := if n < 1152 then .warmup else .run, wcnt := BitVec.ofNat 11 n, bcnt := 0
            acc := 0, dout := 0, doutValid := false, pins := qs.drop n ++ rest } ∧
      (t.ready = true ↔ n = 1152) ∧
      (n = 1152 → t.reg = warm (load k v) ∧ ∀ i, accepts t.phase i = true ∧
        ∀ u, (∀ k' v', i ≠ .init k' v') → exec i t = .next u → u.wcnt = 1152)

/-- R107 (decision D11): an INIT in RUN leaves exactly the state of reset followed by the same INIT; INIT is not accepted in
FAULT. -/
def Obligations.InitAgainIsAFreshStart : Prop :=
  ∀ (s : State) (k v : Operand),
    (s.phase = .run → exec (.init k v) s = exec (.init k v) (State.reset.setPins s.pins)) ∧
    (∀ e, s.phase = .fault e → accepts s.phase (.init k v) = false ∧ exec (.init k v) s = .next (s.setDoutValid false))

/-- R106: during the warm-up no output depends on the register, and with `rst` low the outputs are constant until `ready`
rises. -/
def Obligations.WarmUpIsolation : Prop :=
  ∀ (s : State) (r : Reg) (n : Nat), Consistent s → s.phase = .warmup → n ≤ 1152 - s.wcnt.toNat →
    (∀ t t', edges n s = .next t → edges n (s.setReg r) = .next t' →
      t.outputs = t'.outputs) ∧
    (NoReset s.pins → ∃ t, edges n s = .next t ∧
      t.outputs = { ready := decide (n = 1152 - s.wcnt.toNat), dout := 0, doutValid := false, fault := false })

/-! ## Keystream (42_keystream_output.md) -/

/-- R93: the bit produced first is the least significant. -/
def Obligations.PackLeastSignificantFirst : Prop :=
  ∀ z0 z1 z2 z3 z4 z5 z6 z7 : Bool, let b := pack8 z0 z1 z2 z3 z4 z5 z6 z7
    (∀ n, n < 8 → some (b.getLsbD n) = [z0, z1, z2, z3, z4, z5, z6, z7][n]?) ∧
    b.toNat = z0.toNat + 2 * z1.toNat + 4 * z2.toNat + 8 * z3.toNat + 16 * z4.toNat + 32 * z5.toNat + 64 * z6.toNat
      + 128 * z7.toNat

/-- R92 (decisions D12, D13): NEXTBIT completes from every state in RUN, with the bit on `dout[0]` and every other register as
before; `ready` stays 1, and the next edge without a completing command lets `dout_valid` fall and keeps `dout`. -/
def Obligations.NextBitReturnsTheBit : Prop :=
  ∀ s : State, s.phase = .run →
    ∃ t, exec .nextBit s = .next t ∧
      t = { s with reg := (clockStep s.reg).1, dout := zext8 (clockStep s.reg).2, doutValid := true } ∧
      t.dout.getLsbD 0 = (clockStep s.reg).2 ∧ (∀ n, 1 ≤ n → t.dout.getLsbD n = false) ∧ t.ready = true ∧
      (∃ u, exec .nextBit t = .next u ∧ u.doutValid = true ∧ u.ready = true) ∧
      (∀ u, exec .idle t = .next u ∨ exec .nextByte t = .next u → u.doutValid = false ∧ u.dout = t.dout)

/-- R95 (decisions D12, D13): the eight edges of a NEXTBYTE, one by one; NEXTBYTE completes its accepting edge from every state
in RUN, and on the seven edges in BYTE every command is ignored. -/
def Obligations.NextByteEdgeByEdge : Prop :=
  ∀ s : State,
    (s.phase = .run → exec .nextByte s = .next
      { s with reg := (clockStep s.reg).1, acc := zext8 (clockStep s.reg).2, bcnt := 1, phase := .byte, doutValid := false }) ∧
    (s.phase = .byte → s.ready = false ∧ ∀ i : Instr,
      (s.bcnt.toNat < 7 → exec i s = .next
        { s with reg := (clockStep s.reg).1, acc := s.acc ||| (zext8 (clockStep s.reg).2 <<< s.bcnt.toNat)
                 bcnt := s.bcnt + 1, doutValid := false }) ∧
      (s.bcnt = 7 → ∃ t, exec i s = .next t ∧ t.ready = true ∧
        t = { s with reg := (clockStep s.reg).1, dout := s.acc ||| (zext8 (clockStep s.reg).2 <<< 7), doutValid := true
                     acc := 0, bcnt := 0, phase := .run }))

/-- R94, R95, R144 (decision D12): from every state in RUN, a NEXTBYTE and seven further edges with `rst` low, whatever they
carry, leave Step^8 of the register and the eight bits packed least significant first on `dout`. -/
def Obligations.NextByteOverEightEdges : Prop :=
  ∀ (s : State) (qs rest : List Pins), s.phase = .run → qs.length = 7 → NoReset qs →
    edges 8 (s.setPins (encode .nextByte :: (qs ++ rest))) = .next
      { s with reg := stepMany 8 s.reg, dout := packFrom 0 (keystream 8 s.reg), doutValid := true, acc := 0, bcnt := 0
               pins := rest }

/-- R96: one NEXTBYTE equals eight NEXTBITs packed, at both levels, with the same register after. -/
def Obligations.ByteEqualsEightBits : Prop :=
  (∀ r : Reg,
    let one := opRun Config.wiring [.nextByte] { ophase := .run, reg := r }
    let eight := opRun Config.wiring (List.replicate 8 .nextBit) { ophase := .run, reg := r }
    one.1 = eight.1 ∧ ∃ b zs, one.2 = [.byte b] ∧ eight.2 = zs.map .bit ∧ zs.length = 8 ∧ b = packFrom 0 zs) ∧
  (∀ s : State, s.phase = .run →
    ∃ t u bytes bits, runProgram [.command .nextByte] s = some (t, bytes) ∧ runProgram [.nextBits 8] s = some (u, bits) ∧
      t.reg = u.reg ∧ t.phase = .run ∧ u.phase = .run ∧ bits.length = 8 ∧
      bytes = [packFrom 0 (bits.map fun b => b.getLsbD 0)])

/-- R96, R98: any interleaving of NEXTBITs and NEXTBYTEs on a live generator draws from the one bit sequence of its register,
each bit exactly once and in order. -/
def Obligations.OneKeystreamSequence : Prop :=
  ∀ (cs : List Instr) (r : Reg), (∀ i ∈ cs, drawsOnly i = true) →
    let run := opRun Config.wiring cs { ophase := .run, reg := r }
    let drawn := (cs.map drawnBits).sum
    run.1 = { ophase := .run, reg := stepMany drawn r } ∧ streamBits run.2 = keystream drawn r

/-- R97 (decision D3): IDLE completes in UNINIT and RUN and changes nothing but `dout_valid`; in WARMUP and BYTE the engine
does the same whatever the command is; any number of quiet edges in UNINIT or RUN changes nothing else. -/
def Obligations.IdleHolds : Prop :=
  ∀ s : State,
    (s.ready = true → exec .idle s = .next (s.setDoutValid false)) ∧
    (s.phase = .warmup ∨ s.phase = .byte → ∃ t, exec .idle s = .next t ∧ t.reg = (clockStep s.reg).1 ∧
      ∀ i, exec i s = .next t) ∧
    (s.ready = true → ∀ n rest, edges (n + 1)
      (s.setPins (List.replicate (n + 1) (encode .idle) ++ rest)) = .next ((s.setDoutValid false).setPins rest))

/-- R91, R94, R104: the three calls at the operation level, on a live generator, and what is dropped. -/
def Obligations.OperationLevelCalls : Prop :=
  ∀ (s : OpState) (k v : Operand),
    (s.ophase = .uninit ∨ s.ophase = .run →
      opExec Config.wiring (.init k v) s = ({ ophase := .run, reg := warm (load k v) }, none)) ∧
    (s.ophase = .run → opExec Config.wiring .nextBit s =
      ({ s with reg := (clockStep s.reg).1 }, some (.bit (clockStep s.reg).2))) ∧
    (s.ophase = .run → opExec Config.wiring .nextByte s =
      ({ s with reg := stepMany 8 s.reg }, some (.byte (packFrom 0 (keystream 8 s.reg))))) ∧
    (s.ophase = .uninit → opExec Config.wiring .nextBit s = (s, none) ∧ opExec Config.wiring .nextByte s = (s, none)) ∧
    (∀ e i, s.ophase = .fault e → opExec Config.wiring i s = (s, none)) ∧
    opExec Config.wiring .idle s = (s, none)

/-! ## Faults (60_exceptions.md) -/

/-- R119, R123, R118 (decision D9): for any wiring, an edge whose STEP or LOAD meets a cell number outside 1..288 writes
nothing but `dout_valid` and the phase, and the first bad tap in table order is the one recorded (the order among load
positions is the model's choice, log entry 7). -/
def Obligations.FaultEntry : Prop :=
  ∀ (w : Wiring) (s : State) (i : Nat) (k v : Operand),
    (FirstIllegal w.taps.toList i →
      microStep w s.reg = .error (.contractFailure i) ∧
      (s.phase = .run → nextBitEdge w s = faultedAt i s ∧ nextByteEdge w s = faultedAt i s) ∧
      (s.phase = .warmup ∨ s.phase = .byte → idleEdge w s = faultedAt i s ∧ initEdge w k v s = faultedAt i s ∧
        nextBitEdge w s = faultedAt i s ∧ nextByteEdge w s = faultedAt i s)) ∧
    (FirstIllegal (loadPositions w) i →
      microLoad w k v = .error (.contractFailure i) ∧
      (s.phase = .uninit ∨ s.phase = .run → initEdge w k v s = faultedAt i s))

/-- R119, R123 at the operation level, for any wiring: a bad tap ends the command at its first step, so a NEXTBIT and a
NEXTBYTE leave the register and an INIT leaves the load; a bad load position leaves the register; nothing is returned and the
phase is FAULT (the order among load positions is the model's choice, log entry 7). -/
def Obligations.OperationLevelFault : Prop :=
  ∀ (w : Wiring) (s : OpState) (i : Nat) (k v : Operand),
    (FirstIllegal w.taps.toList i →
      (s.ophase = .run → ∀ c, c = .nextBit ∨ c = .nextByte →
        opExec w c s = ({ s with ophase := .fault (.contractFailure i) }, none)) ∧
      (s.ophase = .uninit ∨ s.ophase = .run → (∀ j ∈ loadPositions w, legalCell j = true) →
        opExec w (.init k v) s = ({ ophase := .fault (.contractFailure i), reg := loadReg w k v }, none))) ∧
    (FirstIllegal (loadPositions w) i → s.ophase = .uninit ∨ s.ophase = .run →
      opExec w (.init k v) s = ({ s with ophase := .fault (.contractFailure i) }, none))

/-- R120, R121 (decision D9): in FAULT every command is dropped and every register holds, on every edge without a reset; a
reset is the only exit and gives the reset state, where only an INIT starts anything. -/
def Obligations.FaultIsSticky : Prop :=
  ∀ (s : State) (e : Fault), s.phase = .fault e → s.doutValid = false →
    (∀ i, accepts s.phase i = false ∧ exec i s = .next s) ∧
    s.outputs = { ready := false, dout := s.dout, doutValid := false, fault := true } ∧
    (∀ qs rest, NoReset qs → edges qs.length (s.setPins (qs ++ rest)) = .next (s.setPins rest)) ∧
    (∀ p ps, p.rst = true → step (s.setPins (p :: ps)) = .next (State.reset.setPins ps)) ∧
    (∀ t, step s = .next t → (t.faultFlag = false ↔ (sample s).1.rst = true))

/-- R118, R87, R74: with the constants of the spec no tap read and no load position fails, every step answers a next state,
and no step enters FAULT. -/
def Obligations.EngineNeverFaults : Prop :=
  Config.wiring.wellFormed = true ∧
  (∀ (w : Wiring) (r : Reg) (k v : Operand), w.wellFormed = true →
    (∃ x, microStep w r = .ok x) ∧ ∃ x, microLoad w k v = .ok x) ∧
  ∀ s : State, ∃ t, step s = .next t ∧ (s.faultFlag = false → t.faultFlag = false)

/-- R122 (decisions D9, D26): on one edge reset comes first, then FAULT, then a busy phase, then the command. -/
def Obligations.PrecedenceOnOneEdge : Prop :=
  ∀ (s : State) (p : Pins) (ps : List Pins),
    (p.rst = true → step (s.setPins (p :: ps)) = .next (State.reset.setPins ps)) ∧
    (p.rst = false → s.faultFlag = true → step (s.setPins (p :: ps)) = .next ((s.setDoutValid false).setPins ps)) ∧
    (p.rst = false → s.phase = .warmup ∨ s.phase = .byte →
      ∃ t, step (s.setPins (p :: ps)) = .next t ∧ t.reg = (clockStep s.reg).1 ∧
        ∀ q : Pins, q.rst = false → step (s.setPins (q :: ps)) = .next t) ∧
    (p.rst = false → s.phase = .uninit ∨ s.phase = .run → step (s.setPins (p :: ps)) = exec (decode p) (s.setPins ps))

/-! ## The whole machine -/

/-- R5, R30, R111, R97: for any sequence of commands, each followed by any number of idle edges, the values the cycle level
flags on `dout`, in order, are those the operation level returns, and the state after is the same. -/
def Obligations.LevelsAgree : Prop :=
  ∀ (cs : List (Instr × Nat)) (s : State) (o : OpState), s.ready = true → s.opView = .between o →
    ∃ t vs, runProgram (cs.flatMap fun c => [Line.command c.1, Line.wait c.2]) s = some (t, vs) ∧
      t.opView = .between (opRun Config.wiring (cs.map Prod.fst) o).1 ∧
      vs = (opRun Config.wiring (cs.map Prod.fst) o).2.map Value.onDout

/-- R30 (decision D1): the map from the cycle level to the operation level. WARMUP is "INIT in progress" and BYTE is "NEXTBYTE in
progress", and nothing else is; with `ready` or `fault` high the state is between commands, with `ophase = phase` and the same
register. A command in progress stays so, whatever is on `cmd`, until it leaves a live generator; only an accepted INIT and an
accepted NEXTBYTE begin one. -/
def Obligations.OperationView : Prop :=
  ∀ s : State,
    (s.opView = .initInProgress ↔ s.phase = .warmup) ∧
    (s.opView = .nextByteInProgress ↔ s.phase = .byte) ∧
    (s.ready = true ∨ s.faultFlag = true ↔ ∃ o, s.opView = .between o) ∧
    (∀ o, s.opView = .between o → o.ophase.toPhase = s.phase ∧ o.reg = s.reg) ∧
    ∀ (i : Instr) (t : State), exec i s = .next t →
      (s.opView = .initInProgress → t.opView = .initInProgress ∨ t.opView = .between { ophase := .run, reg := t.reg }) ∧
      (s.opView = .nextByteInProgress → t.opView = .nextByteInProgress ∨ t.opView = .between { ophase := .run, reg := t.reg }) ∧
      (∀ o, s.opView = .between o →
        (t.opView = .initInProgress ↔ s.ready = true ∧ ∃ k v, i = .init k v) ∧
        (t.opView = .nextByteInProgress ↔ s.phase = .run ∧ i = .nextByte))

/-- R146: every busy phase ends by itself after the number of edges its counter leaves, so without a reset `ready` returns
within 1152 edges. -/
def Obligations.ReadyAlwaysReturns : Prop :=
  ∀ s : State, Consistent s → s.faultFlag = false → NoReset s.pins → s.ready = false →
    ∃ n t, n ≤ 1152 ∧ n = (if s.phase = .warmup then 1152 - s.wcnt.toNat else 8 - s.bcnt.toNat) ∧
      edges n s = .next t ∧ t.ready = true ∧
      ∀ m u, m < n → edges m s = .next u → u.ready = false

/-- R63 (decision D17): the expansions of the pseudo-commands; RESET and NOW at the ports, and NEXTBYTES and NEXTBITS on a live
generator, which return that many values, in order. -/
def Obligations.PseudoCommands : Prop :=
  (∀ s, runProgram [.reset] s = some (State.reset.setPins s.pins, [])) ∧
  (∀ i r, (Line.now i).expand = [.atOnce i] ∧ driveAct (.atOnce i) r = drive (encode i) r) ∧
  (∀ n, (Line.nextBytes n).expand = List.replicate n (.whenReady .nextByte) ∧
    (Line.nextBits n).expand = List.replicate n (.whenReady .nextBit) ∧
    (Line.wait n).expand = List.replicate n (.atOnce .idle)) ∧
  ∀ (s : State) (n : Nat), s.phase = .run →
    ∃ t u vs bs, runProgram [.nextBytes n] s = some (t, vs) ∧ vs.length = n ∧
      runProgram [.nextBits n] s = some (u, bs) ∧ bs.length = n ∧ bs.map (fun b => b.getLsbD 0) = keystream n s.reg ∧
      vs.flatMap (fun b => (List.range 8).map b.getLsbD) = keystream (8 * n) s.reg
end

