-- ==== Sys2Proof/Laws/State.lean ====
section
/-!
SUPPORT. One lemma per field per update of State, true by rfl, so that no proof unfolds a record update.
-/

namespace Sys2Proof.Machine

variable (s : State)

section regUpdate

variable (x : Reg)

@[simp] theorem State.setReg_reg : (s.setReg x).reg = x := rfl
@[simp] theorem State.setReg_phase : (s.setReg x).phase = s.phase := rfl
@[simp] theorem State.setReg_wcnt : (s.setReg x).wcnt = s.wcnt := rfl
@[simp] theorem State.setReg_bcnt : (s.setReg x).bcnt = s.bcnt := rfl
@[simp] theorem State.setReg_acc : (s.setReg x).acc = s.acc := rfl
@[simp] theorem State.setReg_dout : (s.setReg x).dout = s.dout := rfl
@[simp] theorem State.setReg_doutValid : (s.setReg x).doutValid = s.doutValid := rfl
@[simp] theorem State.setReg_pins : (s.setReg x).pins = s.pins := rfl

end regUpdate

section phaseUpdate

variable (x : Phase)

@[simp] theorem State.setPhase_reg : (s.setPhase x).reg = s.reg := rfl
@[simp] theorem State.setPhase_phase : (s.setPhase x).phase = x := rfl
@[simp] theorem State.setPhase_wcnt : (s.setPhase x).wcnt = s.wcnt := rfl
@[simp] theorem State.setPhase_bcnt : (s.setPhase x).bcnt = s.bcnt := rfl
@[simp] theorem State.setPhase_acc : (s.setPhase x).acc = s.acc := rfl
@[simp] theorem State.setPhase_dout : (s.setPhase x).dout = s.dout := rfl
@[simp] theorem State.setPhase_doutValid : (s.setPhase x).doutValid = s.doutValid := rfl
@[simp] theorem State.setPhase_pins : (s.setPhase x).pins = s.pins := rfl

end phaseUpdate

section wcntUpdate

variable (x : BitVec 11)

@[simp] theorem State.setWcnt_reg : (s.setWcnt x).reg = s.reg := rfl
@[simp] theorem State.setWcnt_phase : (s.setWcnt x).phase = s.phase := rfl
@[simp] theorem State.setWcnt_wcnt : (s.setWcnt x).wcnt = x := rfl
@[simp] theorem State.setWcnt_bcnt : (s.setWcnt x).bcnt = s.bcnt := rfl
@[simp] theorem State.setWcnt_acc : (s.setWcnt x).acc = s.acc := rfl
@[simp] theorem State.setWcnt_dout : (s.setWcnt x).dout = s.dout := rfl
@[simp] theorem State.setWcnt_doutValid : (s.setWcnt x).doutValid = s.doutValid := rfl
@[simp] theorem State.setWcnt_pins : (s.setWcnt x).pins = s.pins := rfl

end wcntUpdate

section bcntUpdate

variable (x : BitVec 3)

@[simp] theorem State.setBcnt_reg : (s.setBcnt x).reg = s.reg := rfl
@[simp] theorem State.setBcnt_phase : (s.setBcnt x).phase = s.phase := rfl
@[simp] theorem State.setBcnt_wcnt : (s.setBcnt x).wcnt = s.wcnt := rfl
@[simp] theorem State.setBcnt_bcnt : (s.setBcnt x).bcnt = x := rfl
@[simp] theorem State.setBcnt_acc : (s.setBcnt x).acc = s.acc := rfl
@[simp] theorem State.setBcnt_dout : (s.setBcnt x).dout = s.dout := rfl
@[simp] theorem State.setBcnt_doutValid : (s.setBcnt x).doutValid = s.doutValid := rfl
@[simp] theorem State.setBcnt_pins : (s.setBcnt x).pins = s.pins := rfl

end bcntUpdate

section accUpdate

variable (x : Byte)

@[simp] theorem State.setAcc_reg : (s.setAcc x).reg = s.reg := rfl
@[simp] theorem State.setAcc_phase : (s.setAcc x).phase = s.phase := rfl
@[simp] theorem State.setAcc_wcnt : (s.setAcc x).wcnt = s.wcnt := rfl
@[simp] theorem State.setAcc_bcnt : (s.setAcc x).bcnt = s.bcnt := rfl
@[simp] theorem State.setAcc_acc : (s.setAcc x).acc = x := rfl
@[simp] theorem State.setAcc_dout : (s.setAcc x).dout = s.dout := rfl
@[simp] theorem State.setAcc_doutValid : (s.setAcc x).doutValid = s.doutValid := rfl
@[simp] theorem State.setAcc_pins : (s.setAcc x).pins = s.pins := rfl

end accUpdate

section doutUpdate

variable (x : Byte)

@[simp] theorem State.setDout_reg : (s.setDout x).reg = s.reg := rfl
@[simp] theorem State.setDout_phase : (s.setDout x).phase = s.phase := rfl
@[simp] theorem State.setDout_wcnt : (s.setDout x).wcnt = s.wcnt := rfl
@[simp] theorem State.setDout_bcnt : (s.setDout x).bcnt = s.bcnt := rfl
@[simp] theorem State.setDout_acc : (s.setDout x).acc = s.acc := rfl
@[simp] theorem State.setDout_dout : (s.setDout x).dout = x := rfl
@[simp] theorem State.setDout_doutValid : (s.setDout x).doutValid = s.doutValid := rfl
@[simp] theorem State.setDout_pins : (s.setDout x).pins = s.pins := rfl

end doutUpdate

section doutValidUpdate

variable (x : Bool)

@[simp] theorem State.setDoutValid_reg : (s.setDoutValid x).reg = s.reg := rfl
@[simp] theorem State.setDoutValid_phase : (s.setDoutValid x).phase = s.phase := rfl
@[simp] theorem State.setDoutValid_wcnt : (s.setDoutValid x).wcnt = s.wcnt := rfl
@[simp] theorem State.setDoutValid_bcnt : (s.setDoutValid x).bcnt = s.bcnt := rfl
@[simp] theorem State.setDoutValid_acc : (s.setDoutValid x).acc = s.acc := rfl
@[simp] theorem State.setDoutValid_dout : (s.setDoutValid x).dout = s.dout := rfl
@[simp] theorem State.setDoutValid_doutValid : (s.setDoutValid x).doutValid = x := rfl
@[simp] theorem State.setDoutValid_pins : (s.setDoutValid x).pins = s.pins := rfl

end doutValidUpdate

section pinsUpdate

variable (x : List Pins)

@[simp] theorem State.setPins_reg : (s.setPins x).reg = s.reg := rfl
@[simp] theorem State.setPins_phase : (s.setPins x).phase = s.phase := rfl
@[simp] theorem State.setPins_wcnt : (s.setPins x).wcnt = s.wcnt := rfl
@[simp] theorem State.setPins_bcnt : (s.setPins x).bcnt = s.bcnt := rfl
@[simp] theorem State.setPins_acc : (s.setPins x).acc = s.acc := rfl
@[simp] theorem State.setPins_dout : (s.setPins x).dout = s.dout := rfl
@[simp] theorem State.setPins_doutValid : (s.setPins x).doutValid = s.doutValid := rfl
@[simp] theorem State.setPins_pins : (s.setPins x).pins = x := rfl

end pinsUpdate

/-- A state is the list of its fields. -/
theorem State.eq_of_fields {s t : State} (h1 : s.reg = t.reg) (h2 : s.phase = t.phase) (h3 : s.wcnt = t.wcnt)
    (h4 : s.bcnt = t.bcnt) (h5 : s.acc = t.acc) (h6 : s.dout = t.dout) (h7 : s.doutValid = t.doutValid)
    (h8 : s.pins = t.pins) : s = t := by
  cases s; cases t; simp_all

end Sys2Proof.Machine
end

