-- ==== Sys2Proof/Laws/Decoder.lean ====
section
/-!
SUPPORT. What the decoder can answer: an index passes the check or is the fault, and each micro-operation over it follows.
-/

namespace Sys2Proof.Machine

theorem legalCell_iff (i : Nat) : legalCell i = true ↔ 1 ≤ i ∧ i ≤ 288 := by
  simp [legalCell, Config.ncell]

theorem resolve_of_legal {i : Nat} (h : legalCell i = true) : resolve i = .ok ((i - 1) / 64, 63 - (i - 1) % 64) := by
  have := (legalCell_iff i).1 h
  rw [resolve, if_neg (by simp [Config.ncell]; omega)]; rfl

theorem resolve_of_illegal {i : Nat} (h : legalCell i = false) : resolve i = .error (.contractFailure i) := by
  have := mt (legalCell_iff i).2 (by simp [h])
  rw [resolve, if_pos (by simp [Config.ncell]; omega)]

/-- GETBIT on an illegal cell number reads nothing. -/
theorem getBit_of_illegal {i : Nat} (s : Reg) (h : legalCell i = false) : getBit s i = .error (.contractFailure i) := by
  simp [getBit, resolve_of_illegal h]

/-- SETBIT on an illegal cell number writes nothing. -/
theorem setBit_of_illegal {i : Nat} (s : Reg) (v : Bool) (h : legalCell i = false) :
    setBit s i v = .error (.contractFailure i) := by
  simp [setBit, resolve_of_illegal h]

/-- GETBIT answers exactly on the legal cell numbers. -/
theorem getBit_ok_iff (s : Reg) (i : Nat) : (∃ b, getBit s i = .ok b) ↔ legalCell i = true := by
  cases h : legalCell i with
  | false => simp [getBit_of_illegal s h]
  | true =>
    have := (legalCell_iff i).1 h
    have hw : (i - 1) / 64 < Config.nword := by simp [Config.nword]; omega
    simp [getBit, resolve_of_legal h, wordAt, hw]

/-- The check on a list of cells passes exactly when every one is legal. -/
theorem checkCells_ok_iff (cells : List Nat) : checkCells cells = .ok () ↔ ∀ i ∈ cells, legalCell i = true := by
  induction cells with
  | nil => simp [checkCells]
  | cons i is ih =>
    cases h : legalCell i with
    | false => simp [checkCells, resolve_of_illegal h, h]
    | true => simp [checkCells, resolve_of_legal h, h, ih]

end Sys2Proof.Machine
end

