-- ==== Sys2Proof/Laws/Edge.lean ====
section
/-!
SUPPORT. What one edge can do, operation by operation: fault entry, reset, sampling, the two outcomes of a STEP or a LOAD on an
edge, the edge by phase, and the arms of exec.
-/

namespace Sys2Proof.Machine

variable (w : Wiring) (s : State)

theorem takeFault_eq (e : Fault) : takeFault e s = { s with doutValid := false, phase := .fault e } := rfl

theorem resetEdge_eq : resetEdge s = { State.reset with pins := s.pins } := rfl

@[simp] theorem sample_setPins_nil : sample (s.setPins []) = (Pins.quiet, s.setPins []) := rfl

@[simp] theorem sample_setPins_cons (p : Pins) (ps : List Pins) : sample (s.setPins (p :: ps)) = (p, s.setPins ps) := rfl

/-- Sampling changes nothing but the samples still to come. -/
theorem sample_snd : (sample s).2 = s.setPins s.pins.tail := by
  cases s with
  | mk _ _ _ _ _ _ _ pins => cases pins <;> rfl

theorem stepThen_ok {r : Reg} {z : Bool} {k : Reg → Bool → State} (h : microStep w s.reg = .ok (r, z)) :
    stepThen w s k = k r z := by
  simp [stepThen, h]

theorem stepThen_error {e : Fault} {k : Reg → Bool → State} (h : microStep w s.reg = .error e) :
    stepThen w s k = takeFault e s := by
  simp [stepThen, h]

theorem loadEdge_error {e : Fault} {key iv : Operand} (h : microLoad w key iv = .error e) :
    loadEdge w key iv s = takeFault e s := by
  simp [loadEdge, h]

/-- An accepted INIT writes every register and keeps nothing of the old stream. -/
theorem loadEdge_ok {r : Reg} {key iv : Operand} (h : microLoad w key iv = .ok r) :
    loadEdge w key iv s =
      { reg := r, phase := .warmup, wcnt := 0, bcnt := 0, acc := 0, dout := 0, doutValid := false, pins := s.pins } := by
  simp only [loadEdge, h]; rfl

section ByPhase

variable {w s} {f g : State → State}

theorem onEdge_uninit (h : s.phase = .uninit) : onEdge w s f g = f (s.setDoutValid false) := by simp [onEdge, h]

theorem onEdge_run (h : s.phase = .run) : onEdge w s f g = g (s.setDoutValid false) := by simp [onEdge, h]

theorem onEdge_warmup (h : s.phase = .warmup) : onEdge w s f g = warmupEdge w (s.setDoutValid false) := by simp [onEdge, h]

theorem onEdge_byte (h : s.phase = .byte) : onEdge w s f g = byteEdge w (s.setDoutValid false) := by simp [onEdge, h]

theorem onEdge_fault {e : Fault} (h : s.phase = .fault e) : onEdge w s f g = s.setDoutValid false := by simp [onEdge, h]

end ByPhase

@[simp] theorem exec_idle : exec .idle s = .next (idleEdge Config.wiring s) := rfl

@[simp] theorem exec_init (key iv : Operand) : exec (.init key iv) s = .next (initEdge Config.wiring key iv s) := rfl

@[simp] theorem exec_nextBit : exec .nextBit s = .next (nextBitEdge Config.wiring s) := rfl

@[simp] theorem exec_nextByte : exec .nextByte s = .next (nextByteEdge Config.wiring s) := rfl

/-- An edge is a reset or the command on the ports, nothing else. -/
theorem step_cases :
    ((sample s).1.rst = true ∧ step s = .next (resetEdge (sample s).2)) ∨
      ((sample s).1.rst = false ∧ step s = exec (decode (sample s).1) (sample s).2) := by
  cases h : (sample s).1.rst with
  | true => exact .inl ⟨rfl, by simp [step, h]⟩
  | false => exact .inr ⟨rfl, by simp [step, h]⟩

@[simp] theorem edges_zero : edges 0 s = .next s := rfl

/-- One edge, then the rest of them. -/
theorem edges_succ {t : State} (n : Nat) (h : step s = .next t) : edges (n + 1) s = edges n t := by
  simp only [edges, h]

/-- `edges` is the host's own run of the machine. -/
theorem edges_eq_run (n : Nat) : edges n s = Host.Core.run Sys2Proof.core n s := by
  induction n generalizing s with
  | zero => rfl
  | succ n ih =>
    have h' : Sys2Proof.core.step s = step s := rfl
    cases h : step s <;> rw [h] at h' <;> simp only [edges, h, Host.Core.run, h']
    · exact ih _
    · rfl
    · rfl

end Sys2Proof.Machine
end

