-- ==== Sys2Proof/Laws/PerInstr.lean ====
section
/-!
SUPPORT. One statement per command, about the command as syntax: it is well formed, and its ports hold reset low and carry a
code that its own row of the opcode table gives (30_encoding.md R53, R60).
-/

namespace Sys2Proof.Laws.Code

/-- The code of a command in spec/opcode_table.json. -/
def tableCode : Instr → BitVec 2
  | .idle => 0
  | .init _ _ => 1
  | .nextBit => 2
  | .nextByte => 3

/-- Well formed, presented with `rst` low, under the table's code. -/
def Statement (i : Instr) : Prop := i.wellFormed = true ∧ (encode i).rst = false ∧ (encode i).cmd = tableCode i

theorem idle : Statement .idle := ⟨rfl, rfl, rfl⟩

theorem init (key iv : Operand) : Statement (.init key iv) := ⟨rfl, rfl, rfl⟩

theorem nextBit : Statement .nextBit := ⟨rfl, rfl, rfl⟩

theorem nextByte : Statement .nextByte := ⟨rfl, rfl, rfl⟩

end Sys2Proof.Laws.Code
end

