-- ==== Sys2Proof/Laws/Runs.lean ====
section
/-!
SUPPORT. What the busy edges write once their step has answered, rows of steps at the operation level, and the host's wait for
`ready`.
-/

namespace Sys2Proof.Machine

variable {w : Wiring} {s : State} {r : Reg} {z : Bool}

/-- A warm-up edge whose step answers writes the register and the counter, and with the last count the phase. -/
theorem warmupEdge_ok (h : microStep w s.reg = .ok (r, z)) :
    warmupEdge w s =
      { s with reg := r, wcnt := s.wcnt + 1, phase := if s.wcnt + 1 = 1152#11 then .run else s.phase } := by
  rw [warmupEdge, stepThen_ok w s h]
  simp only [State.setReg, State.setWcnt, State.setPhase]
  split <;> rfl

/-- An edge of a byte before its last gathers the bit and counts it. -/
theorem byteEdge_gather (h : microStep w s.reg = .ok (r, z)) (hb : s.bcnt ≠ 7#3) :
    byteEdge w s = { s with reg := r, acc := s.acc ||| (zext8 z <<< s.bcnt.toNat), bcnt := s.bcnt + 1 } := by
  rw [byteEdge, stepThen_ok w s h]
  exact (if_neg hb).trans rfl

/-- The last edge of a byte returns it. -/
theorem byteEdge_return (h : microStep w s.reg = .ok (r, z)) (hb : s.bcnt = 7#3) :
    byteEdge w s = { s with reg := r, dout := s.acc ||| (zext8 z <<< 7), doutValid := true, acc := 0, bcnt := 0
                            phase := .run } := by
  rw [byteEdge, stepThen_ok w s h]
  refine (if_pos hb).trans ?_
  rw [hb]; rfl

/-- Whatever a step leads to on an edge, a failing one leads to FAULT. -/
theorem stepThen_cases (k : Reg → Bool → State) :
    (∃ r z, microStep w s.reg = .ok (r, z) ∧ stepThen w s k = k r z) ∨
      ∃ e, microStep w s.reg = .error e ∧ stepThen w s k = takeFault e s := by
  cases h : microStep w s.reg with
  | ok rz => exact .inl ⟨rz.1, rz.2, rfl, stepThen_ok w s h⟩
  | error e => exact .inr ⟨e, rfl, stepThen_error w s h⟩

section OperationView

theorem opView_uninit (h : s.phase = .uninit) : s.opView = .between { ophase := .uninit, reg := s.reg } := by
  simp only [State.opView, h]

theorem opView_warmup (h : s.phase = .warmup) : s.opView = .initInProgress := by simp only [State.opView, h]

theorem opView_run (h : s.phase = .run) : s.opView = .between { ophase := .run, reg := s.reg } := by simp only [State.opView, h]

theorem opView_byte (h : s.phase = .byte) : s.opView = .nextByteInProgress := by simp only [State.opView, h]

theorem opView_fault {e : Fault} (h : s.phase = .fault e) : s.opView = .between { ophase := .fault e, reg := s.reg } := by
  simp only [State.opView, h]

end OperationView

/-- A row of steps goes on from the register its first step leaves. -/
theorem opSteps_succ_ok {s s' : Reg} (n : Nat) (h : microStep w s = .ok (s', z)) :
    opSteps w (n + 1) s = { opSteps w n s' with bits := z :: (opSteps w n s').bits } := by
  simp only [opSteps, h]

/-- A row of steps ends at the one that fails. -/
theorem opSteps_succ_error {s : Reg} {e : Fault} (n : Nat) (h : microStep w s = .error e) :
    opSteps w (n + 1) s = { reg := s, bits := [], failed := some e } := by
  simp only [opSteps, h]

theorem keystream_length (n : Nat) (r : Reg) : (keystream n r).length = n := by
  induction n generalizing r with
  | zero => rfl
  | succ n ih => simp [keystream, ih]

/-- Steps add up. -/
theorem stepMany_add (m n : Nat) (r : Reg) : stepMany (m + n) r = stepMany n (stepMany m r) := by
  induction m generalizing r with
  | zero => rw [Nat.zero_add]; rfl
  | succ m ih => rw [Nat.succ_add, stepMany, ih]; rfl

/-- The host does not wait for an engine that is ready. -/
theorem driveUntilReady_ready (fuel : Nat) (seen : List Byte) (h : s.ready = true) :
    driveUntilReady fuel (s, seen) = some (s, seen) := by
  cases fuel <;> simp [driveUntilReady, h]

/-- The host does not wait for an engine that has faulted. -/
theorem driveUntilReady_fault (fuel : Nat) (seen : List Byte) (h : s.faultFlag = true) :
    driveUntilReady fuel (s, seen) = some (s, seen) := by
  cases fuel <;> simp [driveUntilReady, h]

/-- Acts one after another. -/
theorem driveActs_append (as bs : List Act) (r : State × List Byte) :
    driveActs (as ++ bs) r = (driveActs as r).bind (driveActs bs) := by
  induction as generalizing r with
  | nil => rfl
  | cons a as ih => cases h : driveAct a r <;> simp [driveActs, h, ih]

end Sys2Proof.Machine
end

