-- ==== Sys2Proof/Tests/Slice0.lean ====
section
/-!
SUPPORT. Smoke tests of the checks, the test vectors of 95_test_vectors.md that need at most one step, and for every statement
with hypotheses a witness that they can be met, clause by clause. Expected values are the vectors' or worked by hand from the
rules, never the model's.
-/

namespace Sys2Proof.Tests

open Sys2Proof.Machine

-- One theorem after the other: each kernel evaluation waits for the declarations before it, and a thread apiece adds up.
set_option Elab.async false

/-! ## Helpers -/

/-- A register given by its five words, as 95_test_vectors.md writes one. -/
def regOf (w0 w1 w2 w3 w4 : Word) : Reg := (w0 ++ w1 ++ w2 ++ w3 ++ w4).extractLsb' 32 288

/-- The register with ones at the cells listed, as 95_test_vectors.md writes "ones at". -/
def onesAt (cells : List Nat) : Reg := cells.foldl (fun r i => r ||| (1#288 <<< (288 - i))) 0

/-- A state in a phase with given counters, everything else 0. -/
def inPhase (p : Phase) (wcnt : BitVec 11) (bcnt : BitVec 3) : State :=
  { State.reset with phase := p, wcnt := wcnt, bcnt := bcnt }

/-- A live generator with the given register. -/
def live (r : Reg) : State := (inPhase .run 1152 0).setReg r

/-- A faulted engine. -/
def faulted : State := inPhase (.fault (.contractFailure 289)) 7 0

/-- The register IN1 of 95_test_vectors.md. -/
def in1 : Reg := regOf 0xA158C92EB8675496 0x371CD8451A027502 0x04C82157F4B528AF 0xB69185CB8E1AFE64 0x7E12354900000000

/-- A wiring with two bad taps, the first of them 0 in the place of cell 91. -/
def badTap : Wiring := { Config.wiring with taps := { Config.wiring.taps with andA1 := 0, linA := 300 } }

/-- A wiring whose key would end at cell 289. -/
def badKey : Wiring := { Config.wiring with keyLo := 210 }

/-- The next state a step answers with, if it does. -/
def nextOf (o : Host.Outcome State Fault Refusal) : Option State :=
  match o with
  | .next t => some t
  | .fault _ => none
  | .refused _ => none

/-! ## Well-formedness: each check refuses an ill-formed term -/

/-- 40_bit_addressing.md R70. -/
theorem test_illegal_cells : [0, 289, 320, 511].map legalCell = [false, false, false, false] := by decide

/-- 60_exceptions.md R116. -/
theorem test_illegal_lengths :
    [[], List.replicate 9 (0 : Byte), List.replicate 11 0].map legalOperandBytes = [false, false, false] := by decide

/-- A tap, the key, the IV and a cell set to one, each out of range in its turn. -/
theorem test_illegal_wirings :
    [badTap, badKey, { Config.wiring with keyLo := 0 }, { Config.wiring with ivLo := 0 }, { Config.wiring with ivLo := 210 },
      { Config.wiring with ones := [286, 289] }].map Wiring.wellFormed = [false, false, false, false, false, false] := by
  decide

/-- Every command is well formed (30_encoding.md R60, R61). -/
theorem test_commands_legal :
    [Instr.idle, .init 0 (BitVec.allOnes 80), .nextBit, .nextByte].map Instr.wellFormed = [true, true, true, true] := by decide

/-! ## Decoding: the codes of 30_encoding.md R53, written bit by bit, bit 1 first -/

/-- The ports with a code of two bits, and operands that only INIT takes. -/
def portsWith (b1 b0 : Bool) : Pins :=
  { rst := false, cmd := (BitVec.ofBool b1) ++ (BitVec.ofBool b0), key := 0x0123456789ABCDEF1032, iv := 0xFEDCBA9876543210EFCD }

theorem test_decode_idle : decode (portsWith false false) = .idle := by decide

theorem test_decode_init :
    decode (portsWith false true) = .init 0x0123456789ABCDEF1032 0xFEDCBA9876543210EFCD := by decide

theorem test_decode_nextBit : decode (portsWith true false) = .nextBit := by decide

theorem test_decode_nextByte : decode (portsWith true true) = .nextByte := by decide

/-- 30_encoding.md R55: the bytes of a 20-digit string are the port value, byte 0 first. -/
theorem test_bytes_to_port :
    operandOfBytes [0x01, 0x23, 0x45, 0x67, 0x89, 0xAB, 0xCD, 0xEF, 0x10, 0x32] = 0x0123456789ABCDEF1032 ∧
      operandByte 0x0123456789ABCDEF1032 0 = 0x01 ∧ operandByte 0x0123456789ABCDEF1032 9 = 0x32 := by decide

/-- 30_encoding.md R55: operand bit 7 is the least significant bit of byte 0, operand bit 8 the most significant of byte 1. -/
theorem test_keyBit_order :
    keyBit 0x01000000000000000000 7 = true ∧ keyBit 0x00800000000000000000 8 = true ∧
      keyBit 0x00000000000000000001 79 = true ∧ keyBit 0x80000000000000000000 0 = true := by decide

/-! ## Bit addressing: vectors AD and GS -/

/-- AD1 to AD6, AD9 to AD16, AD19, AD20. -/
theorem test_resolve_legal :
    [1, 64, 65, 93, 94, 288, 128, 129, 177, 178, 192, 193, 256, 257, 2, 63].map resolve =
      [.ok (0, 63), .ok (0, 0), .ok (1, 63), .ok (1, 35), .ok (1, 34), .ok (4, 32), .ok (1, 0), .ok (2, 63), .ok (2, 15),
        .ok (2, 14), .ok (2, 0), .ok (3, 63), .ok (3, 0), .ok (4, 63), .ok (0, 62), .ok (0, 1)] := by decide

/-- AD7, AD8, AD17, AD18. -/
theorem test_resolve_illegal :
    [0, 289, 320, 511].map resolve =
      [.error (.contractFailure 0), .error (.contractFailure 289), .error (.contractFailure 320),
        .error (.contractFailure 511)] := by decide

/-- GS1, GS2. -/
theorem test_getBit :
    [286, 287, 288, 285, 1].map (getBit (regOf 0 0 0 0 0x0000000700000000)) =
      [.ok true, .ok true, .ok true, .ok false, .ok false] := by decide +kernel

/-- GS3 to GS7. -/
theorem test_setBit :
    setBit 0 1 true = .ok (regOf 0x8000000000000000 0 0 0 0) ∧ setBit 0 94 true = .ok (regOf 0 0x0000000400000000 0 0 0) ∧
      setBit 0 178 true = .ok (regOf 0 0 0x0000000000004000 0 0) ∧ setBit 0 288 true = .ok (regOf 0 0 0 0 0x0000000100000000) ∧
      setBit (regOf 0xFFFFFFFFFFFFFFFF 0 0 0 0) 64 false = .ok (regOf 0xFFFFFFFFFFFFFFFE 0 0 0 0) := by decide +kernel

/-- GS8. -/
theorem test_access_out_of_range :
    getBit in1 0 = .error (.contractFailure 0) ∧ setBit in1 289 true = .error (.contractFailure 289) := by decide +kernel

/-! ## The step: tables TP and ST -/

/-- TP1 to TP22 and ST1: ones before, output bit, ones after. -/
theorem test_step_of_single_cells :
    ([([66], true, [67, 94]), ([93], true, [94]), ([162], true, [163, 178]), ([177], true, [178]), ([243], true, [1, 244]),
      ([288], true, [1]), ([91], false, [92]), ([92], false, [93]), ([91, 92], false, [92, 93, 94]), ([171], false, [94, 172]),
      ([175], false, [176]), ([176], false, [177]), ([175, 176], false, [176, 177, 178]), ([264], false, [178, 265]),
      ([286], false, [287]), ([287], false, [288]), ([286, 287], false, [1, 287, 288]), ([69], false, [1, 70]), ([1], false, [2]),
      ([94], false, [95]), ([178], false, [179]), ([65], false, [66]), ([], false, [])] : List (List Nat × Bool × List Nat)).all
      (fun row => decide (microStep Config.wiring (onesAt row.1) = .ok (onesAt row.2.2, row.2.1))) = true := by decide +kernel

/-- ST2: the register of ones. -/
theorem test_step_of_ones :
    clockStep (BitVec.allOnes 288) =
      (regOf 0x7FFFFFFFFFFFFFFF 0xFFFFFFFBFFFFFFFF 0xFFFFFFFFFFFFBFFF 0xFFFFFFFFFFFFFFFF 0xFFFFFFFF00000000, false) := by
  decide +kernel

/-- ST3, ST4: the first two warm-up steps of the zero key and IV. -/
theorem test_first_steps :
    clockStep (regOf 0 0 0 0 0x0000000700000000) = (regOf 0 0 0 0 0x0000000300000000, true) ∧
      clockStep (regOf 0 0 0 0 0x0000000300000000) = (regOf 0x8000000000000000 0 0 0 0x0000000100000000, true) := by
  decide +kernel

/-- ST7 and the first row of the tap table of 95_test_vectors.md 2.3. -/
theorem test_taps_of_IN1 :
    (tapBits in1).toList = [false, false, true, false, true, true, false, false, true, false, true, false, false, false, false] ∧
      feedback1 (tapBits in1) = true ∧ feedback2 (tapBits in1) = true ∧ feedback3 (tapBits in1) = false := by decide +kernel

/-- 41_clock_update.md R86 on ST2: the pad stays 0 although the last cell is 1. -/
theorem test_string_step :
    stringStep (storage (BitVec.allOnes 288)) =
      (storage (regOf 0x7FFFFFFFFFFFFFFF 0xFFFFFFFBFFFFFFFF 0xFFFFFFFFFFFFBFFF 0xFFFFFFFFFFFFFFFF 0xFFFFFFFF00000000), false) := by
  decide +kernel

/-! ## Load and packing -/

/-- LD6: the IV byte that crosses a word boundary. -/
theorem test_load_across_words :
    load 0 0x00000000FF0000000000 = regOf 0 0x0000000000000007 0xF800000000000000 0 0x0000000700000000 := by decide +kernel

/-- LD8. -/
theorem test_load :
    load 0x0123456789ABCDEF1032 0xFEDCBA9876543210EFCD =
      regOf 0x0123456789ABCDEF 0x10320007F6E5D4C3 0xB2A190877E680000 0 0x0000000700000000 := by decide +kernel

/-- 95_test_vectors.md 2.6. -/
theorem test_pack :
    pack8 true true false true true true true true = 0xFB ∧ pack8 true false false false false false false false = 0x01 ∧
      pack8 false false false false false false false true = 0x80 := by decide

/-! ## One edge of each command -/

/-- IDLE lets `dout_valid` fall and nothing else (42_keystream_output.md R97). -/
theorem test_idle : nextOf (exec .idle { live in1 with dout := 0x5D, doutValid := true }) = some { live in1 with dout := 0x5D } := by
  decide +kernel

/-- IDLE in WARMUP: the last warm-up edge, checkpoints 1151 and 1152 of IN2. -/
theorem test_idle_last_warmup :
    nextOf (exec .idle ((inPhase .warmup 1151 0).setReg
        (regOf 0x42B1925D70CEA92C 0x6E39B08A3404EA04 0x099042AFE96AD15F 0x6D230B971C35FCC8 0xFC246A9300000000))) =
      some (live in1) := by decide +kernel

/-- INIT: the accepting edge of program P2, in RUN, with LD8. -/
theorem test_init :
    nextOf (exec (.init 0x0123456789ABCDEF1032 0xFEDCBA9876543210EFCD) { live in1 with dout := 0xE0, doutValid := true }) =
      some ((inPhase .warmup 0 0).setReg
        (regOf 0x0123456789ABCDEF 0x10320007F6E5D4C3 0xB2A190877E680000 0 0x0000000700000000)) := by decide +kernel

/-- INIT is dropped in WARMUP, where the step goes on: ST3. -/
theorem test_init_dropped :
    nextOf (exec (.init 1 1) ((inPhase .warmup 0 0).setReg (regOf 0 0 0 0 0x0000000700000000))) =
      some ((inPhase .warmup 1 0).setReg (regOf 0 0 0 0 0x0000000300000000)) := by decide +kernel

/-- NEXTBIT: the first bit of the stream NB1 is 1, and lies in bit 0. -/
theorem test_nextBit :
    (nextOf (exec .nextBit (live in1))).map (fun t => (t.dout, t.doutValid, t.ready)) = some (0x01, true, true) := by decide +kernel

/-- NEXTBIT in UNINIT is dropped: program P3, edge 1. -/
theorem test_nextBit_dropped : nextOf (exec .nextBit State.reset) = some State.reset := by decide

/-- NEXTBYTE: its first edge keeps the first bit of NB1 in `acc`. -/
theorem test_nextByte_first :
    (nextOf (exec .nextByte (live in1))).map (fun t => (t.acc, t.bcnt, decide (t.phase = .byte), t.doutValid)) =
      some (0x01, 1, true, false) := by decide +kernel

/-- The eighth edge of a byte: 1, 1, 0, 1, 1, 1, 1 gathered, and TP1 gives the last 1, so 0xFB (95_test_vectors.md 2.6). -/
theorem test_nextByte_last :
    nextOf (exec .nextByte { inPhase .byte 1152 7 with reg := onesAt [66], acc := 0x7B }) =
      some { live (onesAt [67, 94]) with dout := 0xFB, doutValid := true } := by decide +kernel

/-- Reset in the middle of a byte: program P4. -/
theorem test_reset_mid_byte :
    nextOf (step { inPhase .byte 1152 3 with reg := in1, dout := 0x26, pins := [{ Pins.quiet with rst := true, cmd := 3 }] }) =
      some State.reset := by decide

/-- A bad tap ends the edge in FAULT with nothing written (60_exceptions.md R119). -/
theorem test_fault_entry :
    nextBitEdge badTap { live in1 with dout := 0x26, doutValid := true } =
      { live in1 with dout := 0x26, phase := .fault (.contractFailure 0) } := by decide +kernel

/-- 30_encoding.md R63: a line of a program and what the host reads, `NEXTBIT -> 1` after IN1. -/
theorem test_program_line :
    (runProgram [.command .nextBit, .wait 1] (live in1)).map (fun r => (r.2, r.1.doutValid)) = some ([0x01], false) := by
  decide +kernel

/-! ## Witnesses: the hypotheses of every statement that has some, clause by clause -/

/-- A sample with reset high and a command beside it. -/
def resetPins : Pins := { encode .nextByte with rst := true }

theorem witness_CommandCodes :
    ((encode .idle).cmd = 0b00 ∧ (encode (.init 1 2)).cmd = 0b01 ∧ (encode .nextBit).cmd = 0b10 ∧ (encode .nextByte).cmd = 0b11) ∧
      accepts (inPhase .warmup 3 0).phase (.init 1 2) = false := by decide

theorem witness_DecodeAfterEncode : ∃ i k v, i = Instr.init k v := ⟨.init 5 7, 5, 7, rfl⟩

theorem witness_TableWords : decodeTableWord 8 3 = some .nextByte ∧ decodeTableWord 2 1 = some (.init 0 0) := by decide

theorem witness_StepRunsTheDecodedCommand :
    (encode .nextBit).rst = false ∧ (Instr.init 1 2).wellFormed = true := by decide

theorem witness_OperandBitOrder : (9 < 10 ∧ 7 < 8) ∧ (79 < 80 ∧ 0 < 80) := by decide

theorem witness_ByteStringInit :
    (List.replicate 9 (0 : Byte)).length ≠ 10 ∧ (List.replicate 10 (0 : Byte)).length = 10 ∧
      (List.replicate 11 (0 : Byte)).length ≠ 10 := by decide

theorem witness_AcceptanceTable :
    accepts (inPhase .uninit 0 0).phase .nextBit = false ∧ accepts (inPhase .run 1152 0).phase .nextBit = true ∧
      accepts (inPhase .run 1152 0).phase .nextByte = true ∧ accepts State.reset.phase (.init 1 2) = true ∧
      accepts State.reset.phase .idle = true ∧
      (decode (encode .nextByte) = .nextByte ∧ (encode .nextByte).rst = false) ∧ (decode resetPins = .nextByte ∧ resetPins.rst = true) := by
  decide

theorem witness_ResetGivesTheResetState : resetPins.rst = true := by decide

theorem witness_StatusOutputs :
    State.reset.ready = true ∧ (inPhase .byte 1152 3).ready = false ∧ faulted.faultFlag = true := by decide

theorem witness_DoutValidIsOnePulsePerValue :
    (∃ t, step State.reset = .next t) ∧ completesValue { inPhase .byte 1152 7 with pins := [] } = true ∧
      completesValue { inPhase .run 1152 0 with pins := [encode .nextBit] } = true ∧ completesValue State.reset = false :=
  ⟨⟨_, rfl⟩, by decide⟩

theorem witness_DoutWriters :
    (∃ t, step { State.reset with pins := [resetPins] } = .next t) ∧
      (sample { State.reset with pins := [resetPins] }).1.rst = true ∧
      loadsKey { State.reset with pins := [encode (.init 1 2)] } = true ∧
      (completesValue { inPhase .run 1152 0 with pins := [encode .nextBit] } = true ∧ (inPhase .run 1152 0).phase = .run) ∧
      (completesValue (inPhase .byte 1152 7) = true ∧ (inPhase .byte 1152 7).phase = .byte) ∧
      ((sample State.reset).1.rst = false ∧ loadsKey State.reset = false ∧ completesValue State.reset = false) :=
  ⟨⟨_, rfl⟩, by decide⟩

theorem witness_UpdateMultiplexer :
    (∃ t, step { live in1 with pins := [resetPins] } = .next t) ∧ (sample { live in1 with pins := [resetPins] }).1.rst = true ∧
      (sample { live in1 with pins := [encode .nextBit] }).1.rst = false ∧ (1 ≤ 1 ∧ 1 ≤ 288) ∧ (1 ≤ 288 ∧ 288 ≤ 288) ∧
      ((live in1).phase = .run ∧ (inPhase .warmup 0 0).phase = .warmup ∧ (inPhase .byte 1152 1).phase = .byte) ∧
      (State.reset.ready = true ∧ decode (encode (.init 1 2)) = .init 1 2) ∧ faulted.faultFlag = true ∧
      decode Pins.quiet = .idle :=
  ⟨⟨_, rfl⟩, by decide⟩

/-- The other way to HOLD: an UNINIT engine and a command that is no INIT. -/
theorem witness_UpdateMultiplexer_dropped : State.reset.phase = .uninit ∧ ∀ k v, Instr.nextBit ≠ .init k v :=
  ⟨rfl, fun _ _ => by simp⟩

theorem witness_CommandFrames :
    (∃ t, exec .idle State.reset = .next t) ∧ (State.reset.ready = true ∧ accepts State.reset.phase .nextBit = false) ∧
      (live in1).phase = .run ∧ (inPhase .warmup 1151 0).phase = .warmup ∧ (inPhase .byte 1152 1).phase = .byte ∧
      faulted.faultFlag = true :=
  ⟨⟨_, rfl⟩, by decide, by decide⟩

theorem witness_CounterRules :
    (Consistent State.reset ∧ ∃ t, step State.reset = .next t) ∧
      (Consistent (inPhase .warmup 1151 0) ∧ (sample (inPhase .warmup 1151 0)).1.rst = false) ∧
      (Consistent { live in1 with pins := [encode (.init 1 2)] } ∧ loadsKey { live in1 with pins := [encode (.init 1 2)] } = true) ∧
      (Consistent (live in1) ∧ loadsKey (live in1) = false ∧ (live in1).phase ≠ .warmup) ∧
      (Consistent (inPhase .byte 1152 7) ∧ (inPhase .byte 1152 7).bcnt = 7) ∧
      (Consistent (inPhase .byte 1152 1) ∧ (inPhase .byte 1152 1).bcnt.toNat < 7) ∧
      decode (sample { live in1 with pins := [encode .nextByte] }).1 = .nextByte ∧
      (State.reset.phase ≠ .byte ∧ loadsKey State.reset = false) := by
  refine ⟨⟨rfl, _, rfl⟩, ⟨?_, by decide⟩, ⟨?_, by decide⟩, ⟨?_, by decide⟩, ⟨?_, by decide⟩, ⟨?_, by decide⟩, by decide, by decide⟩ <;>
    simp [Consistent, inPhase, live, State.setReg, State.reset]

theorem witness_InvariantKeptByEveryStep :
    ∃ s t, s.phase = .warmup ∧ Consistent s ∧ step s = .next t :=
  ⟨inPhase .warmup 1151 0, _, rfl, by simp [Consistent, inPhase, State.reset], rfl⟩

theorem witness_ResolveDecoder : (0 < 1 ∨ 288 < 0) ∧ (289 < 1 ∨ 288 < 289) ∧ (1 ≤ 1 ∧ 1 ≤ 288) ∧ (1 ≤ 288 ∧ 288 ≤ 288) := by decide

theorem witness_DecoderBoundaryTests :
    (289, .error (.contractFailure 289)) ∈ decoderTests ∧ 288 ∈ [1, 288] ∧ 0 ∈ [0, 289] ∧ (1 ≤ 287 ∧ 287 ≤ 288 ∧ 287 ≠ 288) := by
  decide

theorem witness_ResolveIsABijection : resolve 288 = .ok (4, 32) ∧ (4 ≤ 4 ∧ 32 ≤ 63 ∧ (4 = 4 → 32 ≤ 32)) := by decide

theorem witness_DecoderCircuit :
    decoderOk 288 = true ∧ decoderOk 1 = true ∧ decoderOk 289 = false ∧ decoderOk 0 = false ∧ decoderSel 288 288 = true := by decide

theorem witness_WordView :
    resolve 288 = .ok (4, 32) ∧ (¬∃ i, resolve i = .ok (4, 31)) ∧ 4 ≤ 4 ∧ (1 ≤ 64 ∧ 64 ≤ 64) ∧ (65 ≤ 128 ∧ 128 ≤ 128) ∧
      (129 ≤ 192 ∧ 192 ≤ 192) ∧ (193 ≤ 256 ∧ 256 ≤ 256) ∧ (257 ≤ 288 ∧ 288 ≤ 288) := by
  refine ⟨by decide, ?_, by decide, by decide, by decide, by decide, by decide, by decide⟩
  rintro ⟨i, h⟩
  rw [resolve] at h
  split at h
  · cases h
  · injection h with h
    injection h with h1 h2
    simp only [Config.wordBits, Config.ncell] at *
    omega

theorem witness_StringView : (1 ≤ 1 ∧ 1 ≤ 288) ∧ (1 ≤ 288 ∧ 288 ≤ 288) ∧ 31 < 32 := by decide

theorem witness_GetBitReadsTheCell :
    (1 ≤ 288 ∧ 288 ≤ 288) ∧ resolve 1 = .ok (0, 63) ∧ (0 < 1 ∨ 288 < 0) ∧ (4 ≤ 4 ∧ 4 < 5) := by decide

theorem witness_SetBitWritesOneCell :
    (289 < 1 ∨ 288 < 289) ∧ (1 ≤ 288 ∧ 288 ≤ 288) ∧ resolve 288 = .ok (4, 32) ∧ (0 ≤ 4 ∧ 0 ≠ 4) ∧ true = cell (onesAt [288]) 288 := by
  decide +kernel

theorem witness_StepFormula : (2 ≤ 288 ∧ 288 ≤ 288 ∧ 288 ≠ 94 ∧ 288 ≠ 178) ∧ (2 ≤ 2 ∧ 2 ≤ 288 ∧ 2 ≠ 94 ∧ 2 ≠ 178) := by decide

theorem witness_XorTreeDegrees : feedback1 ∈ [feedback1, feedback2, feedback3] := by simp

theorem witness_OnlyTheTapsMatter :
    (1 ≤ 1 ∧ 1 ≤ 288 ∧ 1 ∉ Config.wiring.taps.toList ∧ setBit 0 1 true = .ok (onesAt [1])) ∧
      (285 ≤ 288 ∧ 285 ∉ Config.wiring.taps.toList ∧ setBit 0 285 true = .ok (onesAt [285])) := by decide +kernel

theorem witness_LoadCells :
    79 < 80 ∧ (81 ≤ 93 ∧ 93 ≤ 93) ∧ (174 ≤ 285 ∧ 285 ≤ 285) ∧ (286 ≤ 288 ∧ 288 ≤ 288) ∧ (9 < 10 ∧ 7 < 8) := by decide

theorem witness_LoadInWords : (1 ≤ 80 ∧ 80 ≤ 80) ∧ (1 ≤ 1 ∧ 1 ≤ 80) ∧ (94 ≤ 173 ∧ 173 ≤ 173) ∧ (94 ≤ 94 ∧ 94 ≤ 173) := by decide

theorem witness_InitLoads : State.reset.phase = .uninit ∧ (live in1).phase = .run := by decide

/-- Samples for a warm-up, with commands on them that must be ignored. -/
def busyPins (n : Nat) : List Pins := List.replicate n (encode (.init 5 6))

theorem busyPins_noReset (n : Nat) : NoReset (busyPins n) := by
  intro p hp
  rw [List.eq_of_mem_replicate hp]
  decide

theorem witness_InitOver1153Edges :
    (State.reset.phase = .uninit ∧ (live in1).phase = .run) ∧ (busyPins 1152).length = 1152 ∧ NoReset (busyPins 1152) ∧
      (0 ≤ 1152 ∧ 1152 ≤ 1152) :=
  ⟨by decide, List.length_replicate, busyPins_noReset _, by decide⟩

theorem witness_InitOver1153Edges_after :
    (∀ k' v', Instr.nextBit ≠ .init k' v') ∧ ∃ u, exec .nextBit (live in1) = .next u :=
  ⟨fun _ _ => by simp, ⟨_, rfl⟩⟩

theorem witness_InitAgainIsAFreshStart : (live in1).phase = .run ∧ faulted.phase = .fault (.contractFailure 289) := by decide

theorem witness_WarmUpIsolation :
    (Consistent (inPhase .warmup 1151 0) ∧ (inPhase .warmup 1151 0).phase = .warmup ∧
      1 ≤ 1152 - (inPhase .warmup 1151 0).wcnt.toNat ∧ NoReset (inPhase .warmup 1151 0).pins) ∧
      (∃ t t', edges 1 (inPhase .warmup 1151 0) = .next t ∧ edges 1 ((inPhase .warmup 1151 0).setReg in1) = .next t') ∧
      1152 ≤ 1152 - (inPhase .warmup 0 0).wcnt.toNat :=
  ⟨⟨by simp [Consistent, inPhase, State.reset], rfl, by decide, by simp [NoReset, inPhase, State.reset]⟩, ⟨_, _, rfl, rfl⟩, by decide⟩

theorem witness_PackLeastSignificantFirst : 7 < 8 ∧ 0 < 8 := by decide

theorem witness_NextBitReturnsTheBit :
    (live in1).phase = .run ∧ 1 ≤ 7 ∧ (∃ u, exec .idle (live in1) = .next u) ∧ ∃ u, exec .nextByte (live in1) = .next u :=
  ⟨rfl, by decide, ⟨_, rfl⟩, ⟨_, rfl⟩⟩

theorem witness_NextByteEdgeByEdge :
    (live in1).phase = .run ∧ (inPhase .byte 1152 6).phase = .byte ∧ (inPhase .byte 1152 6).bcnt.toNat < 7 ∧
      (inPhase .byte 1152 0).bcnt.toNat < 7 ∧ (inPhase .byte 1152 7).bcnt = 7 := by decide

theorem witness_NextByteOverEightEdges : (live in1).phase = .run ∧ (busyPins 7).length = 7 ∧ NoReset (busyPins 7) :=
  ⟨rfl, rfl, busyPins_noReset 7⟩

theorem witness_ByteEqualsEightBits : (live in1).phase = .run := rfl

theorem witness_OneKeystreamSequence : ∀ i ∈ [Instr.nextBit, .nextByte, .nextBit], drawsOnly i = true := by decide

theorem witness_IdleHolds :
    State.reset.ready = true ∧ (live in1).ready = true ∧ (inPhase .warmup 0 0).phase = .warmup ∧ (inPhase .byte 1152 1).phase = .byte := by
  decide

theorem witness_OperationLevelCalls :
    OpState.reset.ophase = .uninit ∧ ({ ophase := .run, reg := in1 } : OpState).ophase = .run ∧
      ({ ophase := .fault (.contractFailure 0), reg := in1 } : OpState).ophase = .fault (.contractFailure 0) := by decide

theorem badTap_first : FirstIllegal badTap.taps.toList 0 :=
  ⟨[66, 93, 162, 177, 243, 288], [92, 171, 175, 176, 264, 286, 287, 300], rfl, by decide, by decide⟩

theorem badKey_first : FirstIllegal (loadPositions badKey) 289 :=
  ⟨List.range' 210 79, List.range' 94 80 ++ [286, 287, 288], by decide, by decide, by decide⟩

theorem witness_FaultEntry :
    (FirstIllegal badTap.taps.toList 0 ∧ (live in1).phase = .run ∧ (inPhase .warmup 5 0).phase = .warmup ∧
      (inPhase .byte 1152 5).phase = .byte) ∧
      (FirstIllegal (loadPositions badKey) 289 ∧ State.reset.phase = .uninit) :=
  ⟨⟨badTap_first, by decide⟩, badKey_first, rfl⟩

theorem witness_OperationLevelFault :
    (FirstIllegal badTap.taps.toList 0 ∧ ({ ophase := .run, reg := in1 } : OpState).ophase = .run ∧
      (∀ j ∈ loadPositions badTap, legalCell j = true)) ∧
      (FirstIllegal (loadPositions badKey) 289 ∧ OpState.reset.ophase = .uninit) :=
  ⟨⟨badTap_first, rfl, by decide +kernel⟩, badKey_first, rfl⟩

theorem witness_FaultIsSticky :
    (faulted.phase = .fault (.contractFailure 289) ∧ faulted.doutValid = false) ∧ NoReset (busyPins 3) ∧ resetPins.rst = true ∧
      ∃ t, step faulted = .next t :=
  ⟨by decide, busyPins_noReset 3, by decide, ⟨_, rfl⟩⟩

theorem witness_EngineNeverFaults :
    ({ Config.wiring with ones := [1, 288] } : Wiring).wellFormed = true ∧ State.reset.faultFlag = false := by decide

theorem witness_PrecedenceOnOneEdge :
    resetPins.rst = true ∧ (encode .nextByte).rst = false ∧ faulted.faultFlag = true ∧ (inPhase .warmup 2 0).phase = .warmup ∧
      (inPhase .byte 1152 2).phase = .byte ∧ State.reset.phase = .uninit ∧ (live in1).phase = .run := by decide

theorem witness_LevelsAgree :
    (State.reset.ready = true ∧ State.reset.opView = .between OpState.reset) ∧
      ((live in1).ready = true ∧ (live in1).opView = .between { ophase := .run, reg := in1 }) := by decide +kernel

theorem witness_OperationView :
    (inPhase .warmup 3 0).opView = .initInProgress ∧ (inPhase .byte 1152 3).opView = .nextByteInProgress ∧
      (State.reset.ready = true ∧ State.reset.opView = .between OpState.reset) ∧
      (faulted.faultFlag = true ∧ faulted.opView = .between { ophase := .fault (.contractFailure 289), reg := 0 }) ∧
      ∃ t, exec .nextByte (live in1) = .next t :=
  ⟨rfl, rfl, by decide, ⟨rfl, rfl⟩, _, rfl⟩

theorem witness_ReadyAlwaysReturns :
    (Consistent (inPhase .warmup 0 0) ∧ (inPhase .warmup 0 0).faultFlag = false ∧ NoReset (inPhase .warmup 0 0).pins ∧
      (inPhase .warmup 0 0).ready = false) ∧
      (Consistent (inPhase .byte 1152 7) ∧ (inPhase .byte 1152 7).faultFlag = false ∧ NoReset (inPhase .byte 1152 7).pins ∧
        (inPhase .byte 1152 7).ready = false) ∧
      (0 < 1152 ∧ ∃ u, edges 0 (inPhase .warmup 0 0) = .next u) := by
  refine ⟨⟨?_, rfl, ?_, rfl⟩, ⟨?_, rfl, ?_, rfl⟩, by decide, ⟨_, rfl⟩⟩ <;> simp [Consistent, NoReset, inPhase, State.reset]

theorem witness_PseudoCommands : (live in1).phase = .run := rfl

end Sys2Proof.Tests
end

section
/-!
PROOF. The micro-operations under the wiring of the engine: GETBIT on a legal cell number answers that cell, so STEP is the pure
step and LOAD the pure load, and neither ever fails (40_bit_addressing.md R68, R74, 41_clock_update.md R87).
-/

namespace Sys2Proof.Machine

/-- Cell `i` stands at weight `320 - i` of the storage string (20_memory.md R33). -/
theorem storage_getLsbD_cell (s : Reg) {i : Nat} (hi : i ≤ 288) : (storage s).getLsbD (320 - i) = cell s i := by
  rw [storage, cell, BitVec.getLsbD_append, if_neg (by simp only [Config.npad]; omega)]
  congr 1
  simp only [Config.npad, Config.ncell]
  omega

/-- GETBIT on a legal cell number answers the cell. -/
theorem getBit_of_legal (s : Reg) {i : Nat} (h : legalCell i = true) : getBit s i = .ok (cell s i) := by
  obtain ⟨hlo, hhi⟩ := (legalCell_iff i).1 h
  have hword : (i - 1) / 64 < Config.nword := by simp only [Config.nword]; omega
  have hweight : 64 * (4 - (i - 1) / 64) + (63 - (i - 1) % 64) = 320 - i := by omega
  have hoffset : 63 - (i - 1) % 64 < 64 := by omega
  simp [getBit, resolve_of_legal h, wordAt, hword, word, hoffset, hweight,
    storage_getLsbD_cell s hhi]

/-- The fifteen reads of STEP answer the fifteen tap cells. -/
theorem readTaps_wiring (s : Reg) : readTaps Config.wiring.taps s = .ok (tapBits s) := by
  have hlegal : ∀ i ∈ Config.wiring.taps.toList, getBit s i = .ok (cell s i) := fun i hi =>
    getBit_of_legal s (List.all_eq_true.1 (show Config.wiring.taps.toList.all legalCell = true by decide) i hi)
  simp only [Taps.toList, List.forall_mem_cons] at hlegal
  simp only [readTaps, hlegal]
  rfl

/-- STEP never fails and is the pure step. -/
@[simp] theorem microStep_wiring (s : Reg) : microStep Config.wiring s = .ok ((clockStep s).1, (clockStep s).2) := by
  simp [microStep, readTaps_wiring, clockStep]

/-- A STEP on an edge goes on from the pure step. -/
@[simp] theorem stepThen_wiring (s : State) (k : Reg → Bool → State) :
    stepThen Config.wiring s k = k (clockStep s.reg).1 (clockStep s.reg).2 :=
  stepThen_ok _ s (microStep_wiring s.reg)

/-- LOAD never fails and is the pure load. -/
@[simp] theorem microLoad_wiring (key iv : Operand) : microLoad Config.wiring key iv = .ok (load key iv) := by
  have hcheck : checkCells (loadPositions Config.wiring) = .ok () :=
    (checkCells_ok_iff _).2 (List.all_eq_true.1 (by decide))
  simp [microLoad, hcheck, load]

/-- A row of steps gives the pure register and keystream and never fails. -/
@[simp] theorem opSteps_wiring (n : Nat) (s : Reg) :
    opSteps Config.wiring n s = { reg := stepMany n s, bits := keystream n s, failed := none } := by
  induction n generalizing s with
  | zero => rfl
  | succ n ih => rw [opSteps_succ_ok n (microStep_wiring s), ih]; rfl

@[simp] theorem opInit_wiring (key iv : Operand) (o : OpState) :
    opInit Config.wiring key iv o = ({ ophase := .run, reg := warm (load key iv) }, none) := by
  simp [opInit, opPhaseAfter, warm]

@[simp] theorem opNextBit_wiring (o : OpState) :
    opNextBit Config.wiring o = ({ ophase := .run, reg := (clockStep o.reg).1 }, some (.bit (clockStep o.reg).2)) := by
  simp [opNextBit]

@[simp] theorem opNextByte_wiring (o : OpState) :
    opNextByte Config.wiring o =
      ({ ophase := .run, reg := stepMany 8 o.reg }, some (.byte (packFrom 0 (keystream 8 o.reg)))) := by
  simp [opNextByte, opPhaseAfter]

end Sys2Proof.Machine
end

section
/-!
PROOF. One driven edge: with `rst` low the edge is a function of the command and the state, and the host reads what it flags.
-/

namespace Sys2Proof.Machine

/-- The state after an edge with `rst` low on which `i` is presented: what `exec` answers (`exec_eq_edge`). -/
def edge : Instr → State → State
  | .idle => idleEdge Config.wiring
  | .init key iv => initEdge Config.wiring key iv
  | .nextBit => nextBitEdge Config.wiring
  | .nextByte => nextByteEdge Config.wiring

theorem exec_eq_edge (i : Instr) (s : State) : exec i s = .next (edge i s) := by
  cases i <;> rfl

theorem decode_encode (i : Instr) : decode (encode i) = i := by
  cases i <;> simp [decode, encode]

theorem encode_rst (i : Instr) : (encode i).rst = false := by
  cases i <;> rfl

/-- With a command presented and `rst` low, a step is that command's edge. -/
theorem step_encode (i : Instr) (s : State) (ps : List Pins) :
    step (s.setPins (encode i :: ps)) = .next (edge i (s.setPins ps)) := by
  simp [step, encode_rst, decode_encode, exec_eq_edge]

/-- What the host reads after an edge: `dout` when it is flagged, else nothing (10_state.md R23). -/
def State.flagged (s : State) : List Byte := if s.doutValid then [s.dout] else []

theorem drive_encode (i : Instr) (s : State) (seen : List Byte) :
    drive (encode i) (s, seen) = some (edge i s, seen ++ (edge i s).flagged) := by
  have hpins : s.setPins s.pins = s := rfl
  simp only [drive, step_encode, hpins, State.flagged]
  split <;> simp

/-- A quiet edge is one with IDLE presented. -/
theorem quiet_eq_encode : Pins.quiet = encode .idle := rfl

end Sys2Proof.Machine
end

section
/-!
PROOF. The simulation between the levels (00_scope.md R5, 10_state.md R30). A state with a command in progress already fixes
what the command will leave and return, since nothing on `cmd` matters until it completes. `settled` says what that is, the host's
idle edges keep it, and a command presented to a ready engine changes it as the operation level does.
-/

namespace Sys2Proof.Machine

/-- The edges the command in progress still takes (70_reset_and_hazards.md R146). -/
def State.edgesLeft (s : State) : Nat :=
  match s.phase with
  | .warmup => 1152 - s.wcnt.toNat
  | .byte => 8 - s.bcnt.toNat
  | _ => 0

/-- The operation-level state in which the command in progress will leave the engine, and what it will yet flag on `dout`. -/
def State.settled (s : State) : OpState × List Byte :=
  match s.phase with
  | .uninit => ({ ophase := .uninit, reg := s.reg }, [])
  | .warmup => ({ ophase := .run, reg := stepMany s.edgesLeft s.reg }, [])
  | .run => ({ ophase := .run, reg := s.reg }, [])
  | .byte =>
    ({ ophase := .run, reg := stepMany s.edgesLeft s.reg }, [s.acc ||| packFrom s.bcnt.toNat (keystream s.edgesLeft s.reg)])
  | .fault e => ({ ophase := .fault e, reg := s.reg }, [])

/-- Neither faulted nor past the end of the warm-up, so that a busy phase ends after `edgesLeft` edges. -/
def State.Live (s : State) : Prop :=
  match s.phase with
  | .warmup => s.wcnt.toNat < 1152
  | .fault _ => False
  | _ => True

/-- The host, having read `r.2`, has an engine that will settle in `o` with `vs` read in all. -/
structure WillSettle (r : State × List Byte) (o : OpState) (vs : List Byte) : Prop where
  live : r.1.Live
  leaves : r.1.settled.1 = o
  reads : r.2 ++ r.1.settled.2 = vs

/-- A ready engine is in UNINIT or in RUN. -/
theorem ready_iff (s : State) : s.ready = true ↔ s.phase = .uninit ∨ s.phase = .run := by
  cases h : s.phase <;> simp [State.ready, Phase.ready, h]

/-- A ready engine has no command in progress that could be late. -/
theorem live_of_ready {s : State} (h : s.ready = true) : s.Live := by
  obtain hp | hp := (ready_iff s).1 h <;> simp [State.Live, hp]

/-- A ready engine has settled: it is the operation-level state of its view, and owes nothing. -/
theorem opView_of_ready {s : State} (h : s.ready = true) : s.opView = .between s.settled.1 ∧ s.settled.2 = [] := by
  obtain hp | hp := (ready_iff s).1 h <;> simp [State.opView, State.settled, hp]

/-- With no edges left the command in progress has completed. -/
theorem ready_of_edgesLeft_zero {s : State} (hl : s.Live) (h : s.edgesLeft = 0) : s.ready = true := by
  cases hp : s.phase with
  | uninit => exact (ready_iff s).2 (.inl hp)
  | warmup =>
    simp only [State.Live, State.edgesLeft, hp] at hl h
    omega
  | run => exact (ready_iff s).2 (.inr hp)
  | byte =>
    have hcount := s.bcnt.isLt
    simp only [State.edgesLeft, hp] at h
    omega
  | fault e => simp [State.Live, hp] at hl

theorem not_faulted_of_live {s : State} (hl : s.Live) : s.faultFlag = false := by
  cases hp : s.phase with
  | fault e => simp [State.Live, hp] at hl
  | _ => simp [State.faultFlag, Phase.faulted, hp]

/-- No command in progress takes longer than the warm-up, which is what the host allows it. -/
theorem edgesLeft_le (s : State) : s.edgesLeft ≤ 1152 := by
  cases hp : s.phase <;> simp [State.edgesLeft, hp]
  omega

/-- What an edge must do to be one edge of the command in progress: the host is told nothing but what was owed, and the rest
stays owed. -/
structure Advances (s t : State) : Prop where
  live : t.Live
  leaves : t.settled.1 = s.settled.1
  reads : t.flagged ++ t.settled.2 = s.settled.2
  edgesLeft : t.edgesLeft = s.edgesLeft - 1

/-- An idle edge of a ready engine owes and returns nothing (42_keystream_output.md R97). -/
theorem advances_idle_of_ready {s : State} (h : s.ready = true) : Advances s (edge .idle s) := by
  have hedge : edge .idle s = s.setDoutValid false := by
    obtain hp | hp := (ready_iff s).1 h <;> simp [edge, idleEdge, onEdge, hp]
  rw [hedge]
  obtain hp | hp := (ready_iff s).1 h <;>
    constructor <;> simp [State.Live, State.settled, State.edgesLeft, State.flagged, hp]

/-- An idle edge in WARMUP takes one of the steps still due. -/
theorem advances_idle_of_warmup {s : State} (hp : s.phase = .warmup) (hl : s.wcnt.toNat < 1152) :
    Advances s (edge .idle s) := by
  rw [edge, idleEdge, onEdge_warmup hp, warmupEdge_ok (microStep_wiring _)]
  by_cases hlast : s.wcnt + 1#11 = 1152#11
  · have hnow : s.wcnt.toNat = 1151 := by bv_omega
    constructor <;> simp [State.Live, State.settled, State.edgesLeft, State.flagged, hp, hlast, hnow, stepMany]
  · have hcount : (s.wcnt + 1#11).toNat = s.wcnt.toNat + 1 := by bv_omega
    have hmore : s.wcnt.toNat + 1 < 1152 := by bv_omega
    have hleft : 1152 - s.wcnt.toNat = (1152 - (s.wcnt.toNat + 1)) + 1 := by omega
    constructor <;> simp [-BitVec.toNat_add, State.Live, State.settled, State.edgesLeft, State.flagged, hp, hlast, hcount,
      hmore, hleft, stepMany]

/-- An idle edge in BYTE takes one of the steps still due, the last of them returning the byte. -/
theorem advances_idle_of_byte {s : State} (hp : s.phase = .byte) : Advances s (edge .idle s) := by
  rw [edge, idleEdge, onEdge_byte hp]
  by_cases hlast : s.bcnt = 7#3
  · rw [byteEdge_return (s := s.setDoutValid false) (microStep_wiring _) hlast]
    constructor <;>
      simp [State.Live, State.settled, State.edgesLeft, State.flagged, hp, hlast, stepMany, keystream, packFrom]
  · have hcount : (s.bcnt + 1#3).toNat = s.bcnt.toNat + 1 := by bv_omega
    have hleft : 8 - s.bcnt.toNat = (8 - (s.bcnt.toNat + 1)) + 1 := by bv_omega
    rw [byteEdge_gather (s := s.setDoutValid false) (microStep_wiring _) hlast]
    constructor <;> simp [-BitVec.toNat_add, State.Live, State.settled, State.edgesLeft, State.flagged, hp, hcount, hleft,
      stepMany, keystream, packFrom, BitVec.or_assoc]

/-- While nothing new is asked of the engine, every edge advances the command in progress. -/
theorem advances_idle {s : State} (hl : s.Live) : Advances s (edge .idle s) := by
  cases hp : s.phase with
  | uninit => exact advances_idle_of_ready ((ready_iff s).2 (.inl hp))
  | warmup => exact advances_idle_of_warmup hp (by simpa [State.Live, hp] using hl)
  | run => exact advances_idle_of_ready ((ready_iff s).2 (.inr hp))
  | byte => exact advances_idle_of_byte hp
  | fault e => simp [State.Live, hp] at hl

/-- What a command presented to a ready engine starts, or does at once, is what it does at the operation level. -/
structure Obeys (i : Instr) (s t : State) : Prop where
  live : t.Live
  leaves : t.settled.1 = (opExec Config.wiring i s.settled.1).1
  reads : t.flagged ++ t.settled.2 = (opExec Config.wiring i s.settled.1).2.toList.map Value.onDout

/-- INIT loads, and owes the whole warm-up (43_initialization.md R104). -/
theorem obeys_init_of_ready {s : State} (key iv : Operand) (h : s.ready = true) :
    Obeys (.init key iv) s (edge (.init key iv) s) := by
  have hedge : edge (.init key iv) s = loadEdge Config.wiring key iv (s.setDoutValid false) := by
    obtain hp | hp := (ready_iff s).1 h <;> simp [edge, initEdge, onEdge, hp]
  have hop : opExec Config.wiring (.init key iv) s.settled.1 = ({ ophase := .run, reg := warm (load key iv) }, none) := by
    obtain hp | hp := (ready_iff s).1 h <;> simp [State.settled, opExec, hp]
  rw [hedge, loadEdge_ok _ _ (microLoad_wiring key iv)]
  refine ⟨by simp [State.Live], ?_, ?_⟩ <;> rw [hop]
  · simp [State.settled, State.edgesLeft, warm, Config.nwarm]
  · simp [State.settled, State.flagged]

/-- IDLE does nothing at either level. -/
theorem obeys_idle_of_ready {s : State} (h : s.ready = true) : Obeys .idle s (edge .idle s) := by
  have hadv := advances_idle_of_ready h
  have howed := (opView_of_ready h).2
  have hop : opExec Config.wiring .idle s.settled.1 = (s.settled.1, none) := by
    obtain hp | hp := (ready_iff s).1 h <;> simp [State.settled, opExec, hp]
  exact ⟨hadv.live, by rw [hop, hadv.leaves], by rw [hop, hadv.reads, howed]; rfl⟩

/-- NEXTBIT in RUN returns its bit at once, and in UNINIT is dropped. -/
theorem obeys_nextBit_of_ready {s : State} (h : s.ready = true) : Obeys .nextBit s (edge .nextBit s) := by
  obtain hp | hp := (ready_iff s).1 h
  · constructor <;>
      simp [edge, nextBitEdge, onEdge_uninit hp, State.Live, State.settled, State.flagged, opExec, hp]
  · constructor <;>
      simp [edge, nextBitEdge, onEdge_run hp, State.Live, State.settled, State.flagged, opExec, hp, Value.onDout]

/-- NEXTBYTE in RUN takes the first of its steps and owes the byte, and in UNINIT is dropped. -/
theorem obeys_nextByte_of_ready {s : State} (h : s.ready = true) : Obeys .nextByte s (edge .nextByte s) := by
  obtain hp | hp := (ready_iff s).1 h
  · constructor <;>
      simp [edge, nextByteEdge, onEdge_uninit hp, State.Live, State.settled, State.flagged, opExec, hp]
  · constructor <;>
      simp [edge, nextByteEdge, onEdge_run hp, State.Live, State.settled, State.edgesLeft, State.flagged, opExec, hp,
        Value.onDout, stepMany, keystream, packFrom]

/-- Command by command, the edge on which a ready engine takes it agrees with the operation level (00_scope.md R5). -/
theorem obeys_of_ready {s : State} (i : Instr) (h : s.ready = true) : Obeys i s (edge i s) := by
  cases i with
  | idle => exact obeys_idle_of_ready h
  | init key iv => exact obeys_init_of_ready key iv h
  | nextBit => exact obeys_nextBit_of_ready h
  | nextByte => exact obeys_nextByte_of_ready h

/-! ## The host's run -/

/-- One idle edge at the ports. -/
theorem WillSettle.drive_idle {s : State} {seen : List Byte} {o : OpState} {vs : List Byte} (h : WillSettle (s, seen) o vs) :
    ∃ t seen', drive (encode .idle) (s, seen) = some (t, seen') ∧ WillSettle (t, seen') o vs ∧
      t.edgesLeft = s.edgesLeft - 1 := by
  obtain ⟨hlive, hleaves, hreads⟩ := h
  have hadv := advances_idle hlive
  exact ⟨_, _, drive_encode .idle s seen,
    ⟨hadv.live, hadv.leaves.trans hleaves, by rw [List.append_assoc, hadv.reads, hreads]⟩, hadv.edgesLeft⟩

/-- The host's wait ends in a ready engine, if it may last as long as the command in progress does. -/
theorem WillSettle.wait {fuel : Nat} {s : State} {seen : List Byte} {o : OpState} {vs : List Byte}
    (h : WillSettle (s, seen) o vs) (hfuel : s.edgesLeft ≤ fuel) :
    ∃ t seen', driveUntilReady fuel (s, seen) = some (t, seen') ∧ WillSettle (t, seen') o vs ∧ t.ready = true := by
  induction fuel generalizing s seen with
  | zero => exact ⟨s, seen, rfl, h, ready_of_edgesLeft_zero h.live (Nat.le_zero.1 hfuel)⟩
  | succ fuel ih =>
    by_cases hready : s.ready = true
    · exact ⟨s, seen, driveUntilReady_ready _ _ hready, h, hready⟩
    · obtain ⟨t, seen', hdrive, ht, hleft⟩ := h.drive_idle
      obtain ⟨u, seen'', hrun, hu⟩ := ih ht (by omega)
      have hfault : s.faultFlag = false := not_faulted_of_live h.live
      refine ⟨u, seen'', ?_, hu⟩
      rw [driveUntilReady, if_neg (by simp [hready, hfault]), quiet_eq_encode, hdrive]
      exact hrun

/-- A command waits for the engine to be ready and then takes the operation-level state on by one transition. -/
theorem WillSettle.driveAct_whenReady {r : State × List Byte} {o : OpState} {vs : List Byte} (i : Instr)
    (h : WillSettle r o vs) :
    ∃ r', driveAct (.whenReady i) r = some r' ∧
      WillSettle r' (opExec Config.wiring i o).1 (vs ++ (opExec Config.wiring i o).2.toList.map Value.onDout) := by
  obtain ⟨t, seen, hwait, ⟨-, hleaves, hreads⟩, hready⟩ := h.wait (edgesLeft_le r.1)
  have hobeys := obeys_of_ready i hready
  have howed := (opView_of_ready hready).2
  subst hleaves hreads
  refine ⟨(edge i t, seen ++ (edge i t).flagged), ?_, hobeys.live, hobeys.leaves, ?_⟩
  · simp only [driveAct, hwait, Config.nwarm, Option.bind_some, drive_encode]
  · simp only [List.append_assoc, hobeys.reads, howed, List.nil_append]

/-- Idle edges, any number of them, leave what the command in progress will do as it is. -/
theorem WillSettle.driveActs_wait {r : State × List Byte} {o : OpState} {vs : List Byte} (n : Nat) (h : WillSettle r o vs) :
    ∃ r', driveActs (Line.wait n).expand r = some r' ∧ WillSettle r' o vs := by
  induction n generalizing r with
  | zero => exact ⟨r, rfl, h⟩
  | succ n ih =>
    obtain ⟨t, seen, hdrive, ht, -⟩ := h.drive_idle
    obtain ⟨r', hrest, hr'⟩ := ih ht
    refine ⟨r', ?_, hr'⟩
    rw [Line.expand, List.replicate_succ, driveActs, driveAct, hdrive]
    exact hrest

/-- After the host's acts for a list of commands, each with its idle edges, the engine will settle where the operation level
ends. -/
theorem WillSettle.driveActs_commands (cs : List (Instr × Nat)) {r : State × List Byte} {o : OpState} {vs : List Byte}
    (h : WillSettle r o vs) :
    ∃ r', driveActs ((cs.flatMap fun c => [Line.command c.1, Line.wait c.2]).flatMap Line.expand) r = some r' ∧
      WillSettle r' (opRun Config.wiring (cs.map Prod.fst) o).1
        (vs ++ (opRun Config.wiring (cs.map Prod.fst) o).2.map Value.onDout) := by
  induction cs generalizing r o vs with
  | nil => exact ⟨r, rfl, by simpa [opRun] using h⟩
  | cons c cs ih =>
    obtain ⟨r₁, hcommand, h₁⟩ := h.driveAct_whenReady c.1
    obtain ⟨r₂, hwait, h₂⟩ := h₁.driveActs_wait c.2
    obtain ⟨r₃, hrest, h₃⟩ := ih h₂
    refine ⟨r₃, ?_, by simpa [opRun] using h₃⟩
    have hboth : driveActs ([Line.command c.1, Line.wait c.2].flatMap Line.expand) r = some r₂ := by
      rw [← hwait, List.flatMap_cons, List.flatMap_singleton, driveActs_append]
      simp only [Line.expand, driveActs, hcommand, Option.bind_some]
    rw [List.flatMap_cons, List.flatMap_append, driveActs_append, hboth]
    exact hrest

/-- Settles O50: from a ready engine the host's acts leave a state that will settle where the operation level ends, and the wait
that closes the run lets it settle. -/
theorem levelsAgree : Obligations.LevelsAgree := by
  unfold Obligations.LevelsAgree
  intro cs s o hready hview
  obtain ⟨hsettled, howed⟩ := opView_of_ready hready
  have hleaves : s.settled.1 = o := OpView.between.inj (hsettled.symm.trans hview)
  have hstart : WillSettle (s, []) o [] := ⟨live_of_ready hready, hleaves, howed⟩
  obtain ⟨r, hacts, hr⟩ := hstart.driveActs_commands cs
  obtain ⟨t, vs, hwait, ⟨-, hend, hreads⟩, ht⟩ := hr.wait (edgesLeft_le r.1)
  obtain ⟨htview, htowed⟩ := opView_of_ready ht
  refine ⟨t, vs, ?_, by rw [htview, hend], ?_⟩
  · rw [runProgram, hacts]
    exact hwait
  · simpa [htowed] using hreads

end Sys2Proof.Machine
end

section
/-!
PROOF. Status and view of a state, phase by phase: `ready` and `fault` (10_state.md R24, R25), the acceptance of INIT
(30_encoding.md R54) and the map to the operation level (10_state.md R30).
-/

namespace Sys2Proof.Machine

/-- Only the fault phase flags a fault. -/
theorem faultFlag_iff (s : State) : s.faultFlag = true ↔ ∃ e, s.phase = .fault e := by
  cases h : s.phase <;> simp [State.faultFlag, Phase.faulted, h]

/-- A phase accepts INIT exactly when it is ready. -/
theorem accepts_init (p : Phase) (key iv : Operand) : accepts p (.init key iv) = p.ready := by
  cases p <;> rfl

/-- A phase that is not ready accepts nothing. -/
theorem accepts_of_not_ready {p : Phase} (i : Instr) (h : p.ready = false) : accepts p i = false := by
  cases p with
  | uninit => simp [Phase.ready] at h
  | run => simp [Phase.ready] at h
  | warmup => rfl
  | byte => rfl
  | fault e => rfl

/-- Settles O9: `ready` and `fault` by phase, and acceptance from `ready`. -/
theorem statusOutputs : Obligations.StatusOutputs := by
  unfold Obligations.StatusOutputs
  intro s
  exact ⟨ready_iff s, faultFlag_iff s, accepts_init s.phase, fun h i => accepts_of_not_ready i h⟩

theorem opView_initInProgress_iff (s : State) : s.opView = .initInProgress ↔ s.phase = .warmup := by
  cases h : s.phase <;> simp [State.opView, h]

theorem opView_nextByteInProgress_iff (s : State) : s.opView = .nextByteInProgress ↔ s.phase = .byte := by
  cases h : s.phase <;> simp [State.opView, h]

/-- An engine is between commands exactly when it is ready or faulted. -/
theorem exists_opView_between_iff (s : State) :
    (∃ o, s.opView = .between o) ↔ s.ready = true ∨ s.faultFlag = true := by
  cases h : s.phase <;> simp [State.opView, State.ready, Phase.ready, State.faultFlag, Phase.faulted, h]

/-- Between commands `ophase = phase`, and the registers are the same. -/
theorem toPhase_of_opView_between {s : State} {o : OpState} (h : s.opView = .between o) :
    o.ophase.toPhase = s.phase ∧ o.reg = s.reg := by
  cases hp : s.phase <;> simp only [State.opView, hp, OpView.between.injEq, reduceCtorEq] at h <;> subst h <;>
    exact ⟨rfl, rfl⟩

end Sys2Proof.Machine
end

section
/-!
PROOF. What one edge can do, said once. `EdgeRow` lists the rows of `tick` (43_initialization.md R110) for an edge with `rst` low
in the engine of the real wiring; every statement about one edge is a case analysis over them.
-/

namespace Sys2Proof.Machine

/-- The rows of an edge with `rst` low on which `i` is presented: when each applies, and the whole state it leaves. -/
inductive EdgeRow (i : Instr) (s : State) : State → Prop
  /-- UNINIT or RUN without an accepted command (42_keystream_output.md R97, 30_encoding.md R54) -/
  | hold (hready : s.ready = true) (hi : i = .idle ∨ accepts s.phase i = false) : EdgeRow i s (s.setDoutValid false)
  /-- an accepted INIT, which performs LOAD (43_initialization.md R102) -/
  | loads (key iv : Operand) (hready : s.ready = true) (hi : i = .init key iv) :
    EdgeRow i s
      { reg := load key iv, phase := .warmup, wcnt := 0, bcnt := 0, acc := 0, dout := 0, doutValid := false, pins := s.pins }
  /-- a step of the warm-up (43_initialization.md R105) -/
  | warmup (hp : s.phase = .warmup) :
    EdgeRow i s
      { s with reg := (clockStep s.reg).1, wcnt := s.wcnt + 1, phase := if s.wcnt + 1 = 1152#11 then .run else .warmup
               doutValid := false }
  /-- a NEXTBIT in RUN (42_keystream_output.md R92) -/
  | bit (hp : s.phase = .run) (hi : i = .nextBit) :
    EdgeRow i s { s with reg := (clockStep s.reg).1, dout := zext8 (clockStep s.reg).2, doutValid := true }
  /-- a NEXTBYTE in RUN, which takes its first step (42_keystream_output.md R95) -/
  | byteStart (hp : s.phase = .run) (hi : i = .nextByte) :
    EdgeRow i s
      { s with reg := (clockStep s.reg).1, acc := zext8 (clockStep s.reg).2, bcnt := 1, phase := .byte, doutValid := false }
  /-- steps 2 to 7 of a byte (42_keystream_output.md R95) -/
  | byteGather (hp : s.phase = .byte) (hb : s.bcnt ≠ 7) :
    EdgeRow i s
      { s with reg := (clockStep s.reg).1, acc := s.acc ||| (zext8 (clockStep s.reg).2 <<< s.bcnt.toNat)
               bcnt := s.bcnt + 1, doutValid := false }
  /-- the eighth step of a byte, which returns it (42_keystream_output.md R95) -/
  | byteReturn (hp : s.phase = .byte) (hb : s.bcnt = 7) :
    EdgeRow i s
      { s with reg := (clockStep s.reg).1, dout := s.acc ||| (zext8 (clockStep s.reg).2 <<< 7), doutValid := true, acc := 0
               bcnt := 0, phase := .run }
  /-- FAULT does nothing (60_exceptions.md R121) -/
  | faulted (e : Fault) (hp : s.phase = .fault e) : EdgeRow i s (s.setDoutValid false)

/-- Every command's edge is `onEdge`, and differs from another's only in UNINIT and RUN. -/
theorem exists_edge_eq_onEdge (i : Instr) (s : State) : ∃ f g, edge i s = onEdge Config.wiring s f g := by
  cases i with
  | idle => exact ⟨_, _, by rw [edge, idleEdge]⟩
  | init key iv => exact ⟨_, _, by rw [edge, initEdge]⟩
  | nextBit => exact ⟨_, _, by rw [edge, nextBitEdge]⟩
  | nextByte => exact ⟨_, _, by rw [edge, nextByteEdge]⟩

/-- Where nothing is in progress and no command is accepted, an edge only lets `dout_valid` fall. -/
theorem edge_of_hold {i : Instr} {s : State} (hready : s.ready = true) (hi : i = .idle ∨ accepts s.phase i = false) :
    edge i s = s.setDoutValid false := by
  obtain hp | hp := (ready_iff s).1 hready <;> rw [hp] at hi
  · cases i with
    | idle => rw [edge, idleEdge, onEdge_uninit hp]
    | init key iv => simp [accepts] at hi
    | nextBit => rw [edge, nextBitEdge, onEdge_uninit hp]
    | nextByte => rw [edge, nextByteEdge, onEdge_uninit hp]
  · obtain rfl : i = .idle := by simpa [accepts] using hi
    rw [edge, idleEdge, onEdge_run hp]

/-- An accepted INIT is LOAD, which writes every register. -/
theorem edge_init_of_ready {s : State} (key iv : Operand) (hready : s.ready = true) :
    edge (.init key iv) s =
      { reg := load key iv, phase := .warmup, wcnt := 0, bcnt := 0, acc := 0, dout := 0, doutValid := false, pins := s.pins } := by
  have hload : edge (.init key iv) s = loadEdge Config.wiring key iv (s.setDoutValid false) := by
    obtain hp | hp := (ready_iff s).1 hready
    · exact onEdge_uninit hp
    · exact onEdge_run hp
  rw [hload, loadEdge_ok _ _ (microLoad_wiring key iv)]
  rfl

/-- Each edge of WARMUP is a step and a count, whatever the command. -/
theorem edge_of_warmup {s : State} (i : Instr) (hp : s.phase = .warmup) :
    edge i s =
      { s with reg := (clockStep s.reg).1, wcnt := s.wcnt + 1, phase := if s.wcnt + 1 = 1152#11 then .run else .warmup
               doutValid := false } := by
  obtain ⟨f, g, honEdge⟩ := exists_edge_eq_onEdge i s
  rw [honEdge, onEdge_warmup hp, warmupEdge_ok (microStep_wiring _), State.setDoutValid_phase, hp]
  rfl

/-- NEXTBIT in RUN is a step whose bit is returned. -/
theorem edge_nextBit_of_run {s : State} (hp : s.phase = .run) :
    edge .nextBit s = { s with reg := (clockStep s.reg).1, dout := zext8 (clockStep s.reg).2, doutValid := true } := by
  rw [edge, nextBitEdge, onEdge_run hp, stepThen_wiring]
  rfl

/-- NEXTBYTE in RUN is the first step of its byte. -/
theorem edge_nextByte_of_run {s : State} (hp : s.phase = .run) :
    edge .nextByte s =
      { s with reg := (clockStep s.reg).1, acc := zext8 (clockStep s.reg).2, bcnt := 1, phase := .byte, doutValid := false } := by
  rw [edge, nextByteEdge, onEdge_run hp, stepThen_wiring]
  rfl

/-- An edge of BYTE before the eighth step gathers a bit and counts it, whatever the command. -/
theorem edge_of_byte_gather {s : State} (i : Instr) (hp : s.phase = .byte) (hb : s.bcnt ≠ 7) :
    edge i s =
      { s with reg := (clockStep s.reg).1, acc := s.acc ||| (zext8 (clockStep s.reg).2 <<< s.bcnt.toNat)
               bcnt := s.bcnt + 1, doutValid := false } := by
  obtain ⟨f, g, honEdge⟩ := exists_edge_eq_onEdge i s
  rw [honEdge, onEdge_byte hp, byteEdge_gather (s := s.setDoutValid false) (microStep_wiring _) hb]
  rfl

/-- The edge of the eighth step returns the byte, whatever the command. -/
theorem edge_of_byte_return {s : State} (i : Instr) (hp : s.phase = .byte) (hb : s.bcnt = 7) :
    edge i s =
      { s with reg := (clockStep s.reg).1, dout := s.acc ||| (zext8 (clockStep s.reg).2 <<< 7), doutValid := true, acc := 0
               bcnt := 0, phase := .run } := by
  obtain ⟨f, g, honEdge⟩ := exists_edge_eq_onEdge i s
  rw [honEdge, onEdge_byte hp, byteEdge_return (s := s.setDoutValid false) (microStep_wiring _) hb]
  rfl

/-- FAULT only lets `dout_valid` fall, whatever the command. -/
theorem edge_of_fault {s : State} {e : Fault} (i : Instr) (hp : s.phase = .fault e) : edge i s = s.setDoutValid false := by
  obtain ⟨f, g, honEdge⟩ := exists_edge_eq_onEdge i s
  rw [honEdge, onEdge_fault hp]

/-- In UNINIT nothing but INIT does anything (30_encoding.md R54). -/
theorem init_or_hold_of_uninit {s : State} (i : Instr) (hp : s.phase = .uninit) :
    (∃ key iv, i = .init key iv) ∨ i = .idle ∨ accepts s.phase i = false := by
  cases i <;> simp [hp, accepts]

/-- An edge with `rst` low is one of the rows. -/
theorem edgeRow_edge (i : Instr) (s : State) : EdgeRow i s (edge i s) := by
  cases hp : s.phase with
  | uninit =>
    have hready := (ready_iff s).2 (.inl hp)
    obtain ⟨key, iv, rfl⟩ | hi := init_or_hold_of_uninit i hp
    · exact edge_init_of_ready key iv hready ▸ .loads key iv hready rfl
    · exact edge_of_hold hready hi ▸ .hold hready hi
  | warmup => exact edge_of_warmup i hp ▸ .warmup hp
  | run =>
    have hready := (ready_iff s).2 (.inr hp)
    cases i with
    | idle => exact edge_of_hold hready (.inl rfl) ▸ .hold hready (.inl rfl)
    | init key iv => exact edge_init_of_ready key iv hready ▸ .loads key iv hready rfl
    | nextBit => exact edge_nextBit_of_run hp ▸ .bit hp rfl
    | nextByte => exact edge_nextByte_of_run hp ▸ .byteStart hp rfl
  | byte =>
    by_cases hb : s.bcnt = 7
    · exact edge_of_byte_return i hp hb ▸ .byteReturn hp hb
    · exact edge_of_byte_gather i hp hb ▸ .byteGather hp hb
  | fault e => exact edge_of_fault i hp ▸ .faulted e hp

/-- What `exec` answers is the command's edge, and so one of the rows. -/
theorem edgeRow_of_exec {i : Instr} {s t : State} (h : exec i s = .next t) : EdgeRow i s t := by
  obtain rfl : edge i s = t := Host.Outcome.next.inj ((exec_eq_edge i s).symm.trans h)
  exact edgeRow_edge i s

/-- A step is a reset, or the edge of the command decoded from the ports on the state with that sample used up. -/
theorem step_next_cases {s t : State} (h : step s = .next t) :
    ((sample s).1.rst = true ∧ t = State.reset.setPins s.pins.tail) ∨
      ((sample s).1.rst = false ∧ t = edge (decode (sample s).1) (s.setPins s.pins.tail)) := by
  obtain ⟨hrst, hstep⟩ | ⟨hrst, hstep⟩ := step_cases s <;> rw [sample_snd, h] at hstep
  · exact .inl ⟨hrst, Host.Outcome.next.inj hstep⟩
  · exact .inr ⟨hrst, Host.Outcome.next.inj (hstep.trans (exec_eq_edge _ _))⟩

end Sys2Proof.Machine
end

section
/-!
PROOF. The invariant of the registers (10_state.md R19 to R23, R29, 60_exceptions.md R120, R127, R128), phase by phase, and that
every row of an edge keeps it.
-/

namespace Sys2Proof.Machine

section ByPhase

variable {s : State}

theorem consistent_iff_of_uninit (hp : s.phase = .uninit) : Consistent s ↔ s = State.reset.setPins s.pins := by
  simp only [Consistent, hp]

theorem consistent_iff_of_warmup (hp : s.phase = .warmup) :
    Consistent s ↔ s.wcnt.toNat < 1152 ∧ s.bcnt = 0 ∧ s.acc = 0 ∧ s.dout = 0 ∧ s.doutValid = false := by
  simp only [Consistent, hp]

theorem consistent_iff_of_run (hp : s.phase = .run) : Consistent s ↔ s.wcnt = 1152#11 ∧ s.bcnt = 0 ∧ s.acc = 0 := by
  simp only [Consistent, hp]

theorem consistent_iff_of_byte (hp : s.phase = .byte) :
    Consistent s ↔ s.wcnt = 1152#11 ∧ s.bcnt ≠ 0 ∧ s.acc >>> s.bcnt.toNat = 0 ∧ s.doutValid = false := by
  simp only [Consistent, hp]

theorem consistent_iff_of_fault {e : Fault} (hp : s.phase = .fault e) :
    Consistent s ↔ s.wcnt.toNat ≤ 1152 ∧ s.doutValid = false := by
  simp only [Consistent, hp]

end ByPhase

/-- The reset state meets the invariant, whatever the host has still to present. -/
theorem consistent_reset_setPins (ps : List Pins) : Consistent (State.reset.setPins ps) :=
  Iff.mpr (consistent_iff_of_uninit rfl) rfl

/-- Settles O16: the reset state meets the UNINIT row of the invariant. -/
theorem invariantAtReset : Obligations.InvariantAtReset := consistent_reset_setPins []

/-- The invariant does not speak of the samples still to come. -/
theorem consistent_setPins {s : State} (ps : List Pins) (h : Consistent s) : Consistent (s.setPins ps) := by
  cases hp : s.phase with
  | uninit =>
    rw [(consistent_iff_of_uninit hp).1 h]
    exact consistent_reset_setPins ps
  | warmup => exact Iff.mpr (consistent_iff_of_warmup hp) ((consistent_iff_of_warmup hp).1 h)
  | run => exact Iff.mpr (consistent_iff_of_run hp) ((consistent_iff_of_run hp).1 h)
  | byte => exact Iff.mpr (consistent_iff_of_byte hp) ((consistent_iff_of_byte hp).1 h)
  | fault e => exact Iff.mpr (consistent_iff_of_fault hp) ((consistent_iff_of_fault hp).1 h)

/-- A bit put at position `n` leaves a byte that was 0 from `n` on at 0 from `n + 1` on (10_state.md R21). -/
theorem or_zext8_shiftLeft_shiftRight {acc : Byte} {n : Nat} (z : Bool) (h : acc >>> n = 0) :
    (acc ||| (zext8 z <<< n)) >>> (n + 1) = 0 := by
  apply BitVec.eq_of_getLsbD_eq
  intro i hi
  have hacc : acc.getLsbD (n + (i + 1)) = false := by rw [← BitVec.getLsbD_ushiftRight, h]; exact BitVec.getLsbD_zero
  have hz : (zext8 z).getLsbD (i + 1) = false := by simp [zext8]
  have hpos : n + 1 + i = n + (i + 1) := by omega
  simp [hpos, hacc, hz]

/-- Every row of an edge with `rst` low keeps the invariant. -/
theorem EdgeRow.consistent {i : Instr} {s t : State} (h : EdgeRow i s t) (hs : Consistent s) : Consistent t := by
  cases h with
  | hold hready =>
    obtain hp | hp := (ready_iff s).1 hready
    · rw [(consistent_iff_of_uninit hp).1 hs]
      exact consistent_reset_setPins s.pins
    · exact Iff.mpr (consistent_iff_of_run hp) ((consistent_iff_of_run hp).1 hs)
  | loads => exact Iff.mpr (consistent_iff_of_warmup rfl) (by simp)
  | warmup hp =>
    obtain ⟨hcount, hbcnt, hacc, hdout, -⟩ := (consistent_iff_of_warmup hp).1 hs
    by_cases hlast : s.wcnt + 1 = 1152#11
    · exact Iff.mpr (consistent_iff_of_run (if_pos hlast)) ⟨hlast, hbcnt, hacc⟩
    · have hmore : (s.wcnt + 1).toNat < 1152 := by bv_omega
      exact Iff.mpr (consistent_iff_of_warmup (if_neg hlast)) ⟨hmore, hbcnt, hacc, hdout, rfl⟩
  | bit hp => exact Iff.mpr (consistent_iff_of_run hp) ((consistent_iff_of_run hp).1 hs)
  | byteStart hp =>
    obtain ⟨hcount, -, -⟩ := (consistent_iff_of_run hp).1 hs
    have hacc : zext8 (clockStep s.reg).2 >>> 1 = 0 := by
      simpa using or_zext8_shiftLeft_shiftRight (acc := 0) (n := 0) (clockStep s.reg).2 rfl
    exact Iff.mpr (consistent_iff_of_byte rfl) ⟨hcount, (by decide : 1#3 ≠ 0), hacc, rfl⟩
  | byteGather hp hb =>
    obtain ⟨hcount, -, hacc, -⟩ := (consistent_iff_of_byte hp).1 hs
    have hne : s.bcnt + 1 ≠ 0 := by bv_omega
    have hnext : (s.bcnt + 1).toNat = s.bcnt.toNat + 1 := by bv_omega
    refine Iff.mpr (consistent_iff_of_byte hp) ⟨hcount, hne, ?_, rfl⟩
    rw [hnext]
    exact or_zext8_shiftLeft_shiftRight _ hacc
  | byteReturn hp =>
    obtain ⟨hcount, -⟩ := (consistent_iff_of_byte hp).1 hs
    exact Iff.mpr (consistent_iff_of_run rfl) ⟨hcount, rfl, rfl⟩
  | faulted e hp =>
    obtain ⟨hcount, -⟩ := (consistent_iff_of_fault hp).1 hs
    exact Iff.mpr (consistent_iff_of_fault hp) ⟨hcount, rfl⟩

/-- Settles O17: a reset meets the invariant anew, and every row of an edge with `rst` low keeps it. -/
theorem invariantKeptByEveryStep : Obligations.InvariantKeptByEveryStep := by
  unfold Obligations.InvariantKeptByEveryStep
  intro s t hs h
  obtain ⟨-, rfl⟩ | ⟨-, rfl⟩ := step_next_cases h
  · exact consistent_reset_setPins _
  · exact (edgeRow_edge _ _).consistent (consistent_setPins _ hs)

end Sys2Proof.Machine
end

section
/-!
PROOF. What moves `dout`, `dout_valid` and the counters (10_state.md R19, R20, R22, R23): a step's conditions read off the ports,
then a clause per register.
-/

namespace Sys2Proof.Machine

/-- Code 01 is INIT with what is on the operand ports, and no other code is (30_encoding.md R53). -/
theorem exists_decode_eq_init_iff (p : Pins) : (∃ k v, decode p = .init k v) ↔ p.cmd = 1 := by
  have hcode : p.cmd = 1 ↔ p.cmd.getLsbD 1 = false ∧ p.cmd.getLsbD 0 = true := by
    generalize p.cmd = c
    revert c
    decide
  rw [hcode, decode]
  cases p.cmd.getLsbD 1 <;> cases p.cmd.getLsbD 0 <;> simp

theorem loadsKey_iff (s : State) :
    loadsKey s = true ↔ (sample s).1.rst = false ∧ (∃ k v, decode (sample s).1 = .init k v) ∧ s.ready = true := by
  simp [loadsKey, exists_decode_eq_init_iff]

theorem completesValue_iff (s : State) :
    completesValue s = true ↔ (sample s).1.rst = false ∧
      (s.phase = .run ∧ decode (sample s).1 = .nextBit ∨ s.phase = .byte ∧ s.bcnt = 7) := by
  simp [completesValue]

/-- A reset neither loads a key nor completes a value. -/
theorem not_loadsKey_of_rst {s : State} (hrst : (sample s).1.rst = true) : loadsKey s = false := by
  simp [loadsKey, hrst]

theorem not_completesValue_of_rst {s : State} (hrst : (sample s).1.rst = true) : completesValue s = false := by
  simp [completesValue, hrst]

/-- Where an edge holds, no INIT was presented: a ready engine accepts every INIT. -/
theorem ne_init_of_hold {i : Instr} {s : State} (hready : s.ready = true) (hi : i = .idle ∨ accepts s.phase i = false)
    (k v : Operand) : i ≠ .init k v := by
  rintro rfl
  have hnot : s.ready = false := by simpa [accepts_init, State.ready] using hi
  simp [hready] at hnot

/-- Where an edge of RUN holds, the command was IDLE: RUN accepts every other. -/
theorem eq_idle_of_hold_of_run {i : Instr} {s : State} (hp : s.phase = .run) (hi : i = .idle ∨ accepts s.phase i = false) :
    i = .idle := by
  simpa [hp, accepts] using hi

/-- A row leaves `dout_valid` high exactly when it completes a value. -/
theorem EdgeRow.doutValid_iff {i : Instr} {s t : State} (h : EdgeRow i s t) :
    t.doutValid = true ↔ s.phase = .run ∧ i = .nextBit ∨ s.phase = .byte ∧ s.bcnt = 7 := by
  cases h with
  | hold hready hi =>
    obtain hp | hp := (ready_iff s).1 hready
    · simp [hp]
    · simp [hp, eq_idle_of_hold_of_run hp hi]
  | loads key iv hready hi => obtain hp | hp := (ready_iff s).1 hready <;> simp [hp, hi]
  | warmup hp => simp [hp]
  | bit hp hi => simp [hp, hi]
  | byteStart hp hi => simp [hp, hi]
  | byteGather hp hb => simpa [hp] using hb
  | byteReturn hp hb => simp [hp, hb]
  | faulted e hp => simp [hp]

/-- Settles O10: a reset clears `dout_valid`, and each row of an edge sets it exactly when it completes a value. -/
theorem doutValidIsOnePulsePerValue : Obligations.DoutValidIsOnePulsePerValue := by
  unfold Obligations.DoutValidIsOnePulsePerValue
  intro s t h
  obtain ⟨hrst, rfl⟩ | ⟨hrst, rfl⟩ := step_next_cases h
  · exact (not_completesValue_of_rst hrst).symm
  · rw [Bool.eq_iff_iff, (edgeRow_edge _ _).doutValid_iff, completesValue_iff]
    simp [hrst]

/-- A row that neither loads nor completes a value leaves `dout`. -/
theorem EdgeRow.dout_eq {i : Instr} {s t : State} (h : EdgeRow i s t) (hload : ¬((∃ k v, i = .init k v) ∧ s.ready = true))
    (hvalid : t.doutValid = false) : t.dout = s.dout := by
  cases h with
  | loads key iv hready hi => exact absurd ⟨⟨key, iv, hi⟩, hready⟩ hload
  | bit => cases hvalid
  | byteReturn => cases hvalid
  | hold => rfl
  | warmup => rfl
  | byteStart => rfl
  | byteGather => rfl
  | faulted => rfl

/-- Settles O11: the writers of `dout`, each by its edge's equation, and by the rows nothing else. -/
theorem doutWriters : Obligations.DoutWriters := by
  unfold Obligations.DoutWriters
  intro s t h
  have hpulse := doutValidIsOnePulsePerValue s t h
  obtain ⟨hrst, rfl⟩ | ⟨hrst, rfl⟩ := step_next_cases h
  · simp [hrst, not_loadsKey_of_rst hrst, not_completesValue_of_rst hrst, State.reset]
  · refine ⟨by simp [hrst], fun hload => ?_, fun hdone hp => ?_, fun hdone hp => ?_, fun _ hload hdone => ?_⟩
    · obtain ⟨-, ⟨k, v, hi⟩, hready⟩ := (loadsKey_iff s).1 hload
      rw [hi, edge_init_of_ready (s := s.setPins s.pins.tail) k v hready]
    · obtain ⟨-, ⟨-, hi⟩ | ⟨hbyte, -⟩⟩ := (completesValue_iff s).1 hdone
      · rw [hi, edge_nextBit_of_run (s := s.setPins s.pins.tail) hp]
        rfl
      · simp [hp] at hbyte
    · obtain ⟨-, ⟨hrun, -⟩ | ⟨-, hb⟩⟩ := (completesValue_iff s).1 hdone
      · simp [hp] at hrun
      · rw [edge_of_byte_return (s := s.setPins s.pins.tail) _ hp hb]
        rfl
    · refine (edgeRow_edge _ _).dout_eq (fun hinit => ?_) (hpulse.trans hdone)
      simp [(loadsKey_iff s).2 ⟨hrst, hinit⟩] at hload

/-- A row that neither loads nor warms up leaves `wcnt`. -/
theorem EdgeRow.wcnt_eq {i : Instr} {s t : State} (h : EdgeRow i s t) (hload : ¬((∃ k v, i = .init k v) ∧ s.ready = true))
    (hphase : s.phase ≠ .warmup) : t.wcnt = s.wcnt := by
  cases h with
  | loads key iv hready hi => exact absurd ⟨⟨key, iv, hi⟩, hready⟩ hload
  | warmup hp => exact absurd hp hphase
  | hold => rfl
  | bit => rfl
  | byteStart => rfl
  | byteGather => rfl
  | byteReturn => rfl
  | faulted => rfl

/-- A row that neither loads nor takes a step of a byte leaves `bcnt`. -/
theorem EdgeRow.bcnt_eq {i : Instr} {s t : State} (h : EdgeRow i s t) (hload : ¬((∃ k v, i = .init k v) ∧ s.ready = true))
    (hphase : s.phase ≠ .byte) (hstart : ¬(s.phase = .run ∧ i = .nextByte)) : t.bcnt = s.bcnt := by
  cases h with
  | loads key iv hready hi => exact absurd ⟨⟨key, iv, hi⟩, hready⟩ hload
  | byteStart hp hi => exact absurd ⟨hp, hi⟩ hstart
  | byteGather hp => exact absurd hp hphase
  | byteReturn hp => exact absurd hp hphase
  | hold => rfl
  | warmup => rfl
  | bit => rfl
  | faulted => rfl

/-- The warm-up ends with the edge on which the count reaches 1152. -/
theorem phase_edge_eq_run_iff_of_warmup {s : State} (i : Instr) (hp : s.phase = .warmup) :
    (edge i s).phase = .run ↔ s.wcnt + 1 = 1152#11 := by
  rw [edge_of_warmup i hp]
  by_cases hlast : s.wcnt + 1 = 1152#11
  · exact iff_of_true (if_pos hlast) hlast
  · exact iff_of_false (by simpa using hlast) hlast

/-- Settles O15: the movers of each counter, each by its edge's equation, and by the rows nothing else. -/
theorem counterRules : Obligations.CounterRules := by
  unfold Obligations.CounterRules
  intro s t hs h
  obtain ⟨hrst, rfl⟩ | ⟨hrst, rfl⟩ := step_next_cases h
  · simp [hrst, State.reset]
  · have hnoInit : loadsKey s = false → ¬((∃ k v, decode (sample s).1 = .init k v) ∧ s.ready = true) := by
      intro hload hinit
      simp [(loadsKey_iff s).2 ⟨hrst, hinit⟩] at hload
    refine ⟨fun hload => ?_, fun _ hp => ?_, fun _ hload hp => (edgeRow_edge _ _).wcnt_eq (hnoInit hload) hp,
      fun _ hp hi => ?_, fun _ hp hb => ?_, fun _ hp hb => ?_,
      fun _ hload hp hstart => (edgeRow_edge _ _).bcnt_eq (hnoInit hload) hp hstart⟩
    · obtain ⟨-, ⟨k, v, hi⟩, hready⟩ := (loadsKey_iff s).1 (hload.resolve_left (by simp [hrst]))
      rw [hi, edge_init_of_ready (s := s.setPins s.pins.tail) k v hready]
      exact ⟨rfl, rfl⟩
    · obtain ⟨hcount, -⟩ := (consistent_iff_of_warmup hp).1 hs
      have hnext : (s.wcnt + 1).toNat = s.wcnt.toNat + 1 := by bv_omega
      have hrun := phase_edge_eq_run_iff_of_warmup (s := s.setPins s.pins.tail) (decode (sample s).1) hp
      rw [edge_of_warmup (s := s.setPins s.pins.tail) _ hp] at hrun ⊢
      exact ⟨hnext, hrun.trans BitVec.toNat_eq⟩
    · rw [hi, edge_nextByte_of_run (s := s.setPins s.pins.tail) hp]
    · have hnot : s.bcnt ≠ 7 := by bv_omega
      rw [edge_of_byte_gather (s := s.setPins s.pins.tail) _ hp hnot]
      exact (by bv_omega : (s.bcnt + 1).toNat = s.bcnt.toNat + 1)
    · rw [edge_of_byte_return (s := s.setPins s.pins.tail) _ hp hb]

end Sys2Proof.Machine
end

section
/-!
PROOF. The frames of the commands (10_state.md R28) and the edges of a command in progress (10_state.md R30).
-/

namespace Sys2Proof.Machine

/-- No row touches the samples still to come. -/
theorem EdgeRow.pins_eq {i : Instr} {s t : State} (h : EdgeRow i s t) : t.pins = s.pins := by
  cases h <;> rfl

/-- Settles O13: each frame is read off the edge's equation. -/
theorem commandFrames : Obligations.CommandFrames := by
  unfold Obligations.CommandFrames
  intro s t i h
  obtain rfl : edge i s = t := Host.Outcome.next.inj ((exec_eq_edge i s).symm.trans h)
  have hrow := edgeRow_edge i s
  refine ⟨hrow.pins_eq, fun hi hready => ?_, fun hi hp => ?_, fun hi hp => ?_, fun hp => ?_, fun hp => ?_, fun hf => ?_⟩
  · rw [edge_of_hold hready hi]
    exact ⟨rfl, rfl, rfl, rfl, rfl, fun _ => rfl⟩
  · rw [hi, edge_nextBit_of_run hp]
    exact ⟨rfl, rfl, rfl, rfl⟩
  · rw [hi, edge_nextByte_of_run hp]
    exact ⟨rfl, rfl⟩
  · rw [edge_of_warmup i hp]
    exact ⟨rfl, rfl, rfl⟩
  · exact hrow.wcnt_eq (by simp [State.ready, Phase.ready, hp]) (by simp [hp])
  · obtain ⟨e, hp⟩ := (faultFlag_iff s).1 hf
    exact edge_of_fault i hp

/-- A row ends in WARMUP from WARMUP, or by an accepted INIT. -/
theorem EdgeRow.phase_warmup_iff {i : Instr} {s t : State} (h : EdgeRow i s t) (hp : s.phase ≠ .warmup) :
    t.phase = .warmup ↔ s.ready = true ∧ ∃ k v, i = .init k v := by
  cases h with
  | hold hready hi => simpa [hready, ne_init_of_hold hready hi] using hp
  | loads key iv hready hi => simp [hready, hi]
  | warmup hw => exact absurd hw hp
  | bit hr hi => simp [hr, hi]
  | byteStart hr hi => simp [hi]
  | byteGather hb => simp [hb, State.ready, Phase.ready]
  | byteReturn hb => simp [hb, State.ready, Phase.ready]
  | faulted e hf => simp [hf, State.ready, Phase.ready]

/-- A row ends in BYTE from BYTE, or by an accepted NEXTBYTE. -/
theorem EdgeRow.phase_byte_iff {i : Instr} {s t : State} (h : EdgeRow i s t) (hp : s.phase ≠ .byte) :
    t.phase = .byte ↔ s.phase = .run ∧ i = .nextByte := by
  cases h with
  | hold hready hi =>
    obtain hu | hr := (ready_iff s).1 hready
    · simp [hu]
    · simp [hr, eq_idle_of_hold_of_run hr hi]
  | loads key iv hready hi => simp [hi]
  | warmup hw =>
    simp only [hw]
    split <;> simp
  | bit hr hi => simp [hr, hi]
  | byteStart hr hi => simp [hr, hi]
  | byteGather hb => exact absurd hb hp
  | byteReturn hb => exact absurd hb hp
  | faulted e hf => simp [hf]

/-- The warm-up goes on or leaves a live generator. -/
theorem phase_edge_of_warmup {s : State} (i : Instr) (hp : s.phase = .warmup) :
    (edge i s).phase = .warmup ∨ (edge i s).phase = .run := by
  rw [edge_of_warmup i hp]
  exact (ite_eq_or_eq _ _ _).symm

/-- A byte in progress goes on or leaves a live generator. -/
theorem phase_edge_of_byte {s : State} (i : Instr) (hp : s.phase = .byte) :
    (edge i s).phase = .byte ∨ (edge i s).phase = .run := by
  by_cases hb : s.bcnt = 7
  · exact .inr (by rw [edge_of_byte_return i hp hb])
  · exact .inl (by rw [edge_of_byte_gather i hp hb, ← hp])

/-- Settles O54: the view is the phase's, and the rows say which phases an edge can lead to. -/
theorem operationView : Obligations.OperationView := by
  unfold Obligations.OperationView
  intro s
  refine ⟨opView_initInProgress_iff s, opView_nextByteInProgress_iff s, (exists_opView_between_iff s).symm,
    fun o ho => toPhase_of_opView_between ho, fun i t h => ?_⟩
  obtain rfl : edge i s = t := Host.Outcome.next.inj ((exec_eq_edge i s).symm.trans h)
  refine ⟨fun hv => ?_, fun hv => ?_, fun o ho => ⟨?_, ?_⟩⟩
  · exact (phase_edge_of_warmup i ((opView_initInProgress_iff s).1 hv)).imp opView_warmup opView_run
  · exact (phase_edge_of_byte i ((opView_nextByteInProgress_iff s).1 hv)).imp opView_byte opView_run
  · rw [opView_initInProgress_iff]
    exact (edgeRow_edge i s).phase_warmup_iff fun hp => by simp [opView_warmup hp] at ho
  · rw [opView_nextByteInProgress_iff]
    exact (edgeRow_edge i s).phase_byte_iff fun hp => by simp [opView_byte hp] at ho

end Sys2Proof.Machine
end

section
/-!
PROOF. The word view of the register (10_state.md R15): a word's bit is the storage string's at the word's place, so it is the
cell that resolves to it, and 0 on the pad.
-/

namespace Sys2Proof.Machine

/-- A word is a slice of the storage string. -/
theorem word_getLsbD (s : Reg) (k o : Nat) (ho : o < 64) : (word s k).getLsbD o = (storage s).getLsbD (64 * (4 - k) + o) := by
  simp [word, ho]

/-- Word `k` holds the cells `64 k + 1` to `64 (k + 1)`, the first at the most significant end. -/
theorem word_getLsbD_cell (s : Reg) {i k : Nat} (hlo : 64 * k < i) (hhi : i ≤ 64 * (k + 1)) (hi : i ≤ 288) :
    (word s k).getLsbD (64 * (k + 1) - i) = cell s i := by
  have hweight : 64 * (4 - k) + (64 * (k + 1) - i) = 320 - i := by omega
  rw [word_getLsbD s k _ (by omega), hweight, storage_getLsbD_cell s hi]

/-- The last 32 bits of the storage string are the pad, always 0 (10_state.md R16). -/
theorem storage_getLsbD_pad (s : Reg) {o : Nat} (ho : o < 32) : (storage s).getLsbD o = false := by
  simp [storage, BitVec.getLsbD_append, ho]

/-- Only a legal cell number resolves. -/
theorem legalCell_of_resolve_ok {i : Nat} {p : Nat × Nat} (h : resolve i = .ok p) : legalCell i = true := by
  cases hl : legalCell i with
  | true => rfl
  | false => simp [resolve_of_illegal hl] at h

/-- Every position off the pad is resolved to (40_bit_addressing.md R67). -/
theorem resolve_of_position {k o : Nat} (ho : o < 64) (hi : 64 * (k + 1) - o ≤ 288) :
    resolve (64 * (k + 1) - o) = .ok (k, o) := by
  have hword : (64 * (k + 1) - o - 1) / 64 = k := by omega
  have hoffset : 63 - (64 * (k + 1) - o - 1) % 64 = o := by omega
  rw [resolve_of_legal ((legalCell_iff _).2 ⟨by omega, hi⟩), hword, hoffset]

/-- A position to which no cell resolves is above its word or on the pad. -/
theorem word_getLsbD_of_unresolved (s : Reg) {k o : Nat} (hk : k ≤ 4) (h : ¬∃ i, resolve i = .ok (k, o)) :
    (word s k).getLsbD o = false := by
  by_cases ho : o < 64
  · have hi : ¬64 * (k + 1) - o ≤ 288 := fun hi => h ⟨_, resolve_of_position ho hi⟩
    have hpad : 64 * (4 - k) + o < 32 := by omega
    rw [word_getLsbD s k o ho, storage_getLsbD_pad s hpad]
  · exact BitVec.getLsbD_of_ge _ _ (by omega)

/-- The bit a cell resolves to is the cell. -/
theorem word_getLsbD_of_resolve (s : Reg) {i k o : Nat} (h : resolve i = .ok (k, o)) : (word s k).getLsbD o = cell s i := by
  have hl := legalCell_of_resolve_ok h
  obtain ⟨hlo, hhi⟩ := (legalCell_iff i).1 hl
  obtain ⟨rfl, rfl⟩ := Prod.mk.inj (Except.ok.inj ((resolve_of_legal hl).symm.trans h))
  have hoffset : 63 - (i - 1) % 64 = 64 * ((i - 1) / 64 + 1) - i := by omega
  rw [hoffset]
  exact word_getLsbD_cell s (by omega) (by omega) hhi

/-- Settles O21: the three clauses are the bit a cell resolves to, the bits none resolves to, and word `k` cell by cell. -/
theorem wordView : Obligations.WordView := by
  unfold Obligations.WordView
  intro s
  refine ⟨fun i k o => word_getLsbD_of_resolve s, fun k o => word_getLsbD_of_unresolved s, fun i => ⟨?_, ?_, ?_, ?_, ?_⟩⟩
  · exact fun hlo hhi => word_getLsbD_cell s (k := 0) (by omega) (by omega) (by omega)
  · exact fun hlo hhi => word_getLsbD_cell s (k := 1) (by omega) (by omega) (by omega)
  · exact fun hlo hhi => word_getLsbD_cell s (k := 2) (by omega) (by omega) (by omega)
  · exact fun hlo hhi => word_getLsbD_cell s (k := 3) (by omega) (by omega) (by omega)
  · exact fun hlo hhi => word_getLsbD_cell s (k := 4) (by omega) (by omega) hhi

end Sys2Proof.Machine
end

section
/-!
PROOF. The bit order of an operand on its port (20_memory.md R35, 30_encoding.md R55, R56).
-/

namespace Sys2Proof.Machine

/-- A byte of an operand is a slice of the port. -/
theorem operandByte_getLsbD (x : Operand) (j : Nat) {b : Nat} (hb : b < 8) :
    (operandByte x j).getLsbD b = x.getLsbD (72 - 8 * j + b) := by
  simp [operandByte, hb]

/-- Operand bit `n` stands at port bit `79 - n`: the most significant bit of byte 0 comes first. -/
theorem keyBit_eq_getLsbD (x : Operand) {n : Nat} (hn : n < 80) : keyBit x n = x.getLsbD (79 - n) := by
  have hplace : 72 - 8 * (n / 8) + (7 - n % 8) = 79 - n := by omega
  rw [keyBit, operandByte_getLsbD x _ (by omega), hplace]

/-- Settles O5: the bytes are slices of the port, and the place of an operand bit follows from its byte's. -/
theorem operandBitOrder : Obligations.OperandBitOrder := by
  unfold Obligations.OperandBitOrder
  exact fun x => ⟨fun j _ _ hb => operandByte_getLsbD x j hb, fun _ _ => rfl, fun _ hn => keyBit_eq_getLsbD x hn⟩

end Sys2Proof.Machine
end

section
/-!
PROOF. The 320-bit string (20_memory.md R33): the five words are its consecutive slices, and its pad is that of word 4.
-/

namespace Sys2Proof.Machine

/-- The five words are adjacent slices of the string, so that joining them one by one gives it back. -/
theorem storage_eq_append_words (s : Reg) : storage s = word s 0 ++ word s 1 ++ word s 2 ++ word s 3 ++ word s 4 := by
  simp only [word]
  iterate 4 rw [BitVec.extractLsb'_append_extractLsb'_eq_extractLsb' (by rfl)]
  exact BitVec.extractLsb'_eq_self.symm

/-- The low half of word 4 is the pad of the string (10_state.md R16). -/
theorem word_four_getLsbD_pad (s : Reg) {o : Nat} (ho : o < 32) : (word s 4).getLsbD o = false := by
  rw [word_getLsbD s 4 o (by omega)]
  exact storage_getLsbD_pad s (by omega)

/-- Settles O22: the join of the words, the weight of a cell, and the pad in the string and in word 4. -/
theorem stringView : Obligations.StringView := by
  unfold Obligations.StringView
  exact fun s => ⟨storage_eq_append_words s, fun _ _ hhi => storage_getLsbD_cell s hhi,
    fun _ ho => ⟨storage_getLsbD_pad s ho, word_four_getLsbD_pad s ho⟩⟩

end Sys2Proof.Machine
end

section
/-!
PROOF. A step with `rst` low is `exec` of the command on the ports (20_memory.md R49, 30_encoding.md R64, 43_initialization.md
R110), and no sample left is IDLE presented (log entry 2).
-/

namespace Sys2Proof.Machine

/-- With `rst` low a step runs the decoded command on the state with that sample used up. -/
theorem step_setPins_cons {p : Pins} (s : State) (ps : List Pins) (hrst : p.rst = false) :
    step (s.setPins (p :: ps)) = exec (decode p) (s.setPins ps) := by
  simp [step, hrst]

/-- A step on a presented encoding runs the command encoded. -/
theorem step_setPins_encode (i : Instr) (s : State) (ps : List Pins) :
    step (s.setPins (encode i :: ps)) = exec i (s.setPins ps) := by
  rw [step_setPins_cons s ps (encode_rst i), decode_encode]

/-- With no sample left a step runs IDLE, as if the host had presented it. -/
theorem step_setPins_nil (s : State) : step (s.setPins []) = exec .idle (s.setPins []) := by
  have hquiet : step (s.setPins []) = step (s.setPins [encode .idle]) := rfl
  rw [hquiet, step_setPins_encode]

/-- Settles O4: a sample with `rst` low, no sample, and a sample that encodes a command. -/
theorem stepRunsTheDecodedCommand : Obligations.StepRunsTheDecodedCommand := by
  unfold Obligations.StepRunsTheDecodedCommand
  exact fun s _ ps => ⟨step_setPins_cons s ps, step_setPins_nil s, fun i _ => step_setPins_encode i s ps⟩

end Sys2Proof.Machine
end

section
/-!
PROOF. Commands at the ports: the codes of the opcode table and the table words (30_encoding.md R52, R53, R64), and what each
phase does with a command it accepts or drops (R54).
-/

namespace Sys2Proof.Machine

/-- A command that the phase does not accept acts as an absent one (log entry 6). -/
theorem exec_of_not_accepts {i : Instr} {s : State} (h : accepts s.phase i = false) : exec i s = exec .idle s := by
  rw [exec_eq_edge, exec_eq_edge]
  congr 1
  cases hp : s.phase with
  | uninit =>
    have hready := (ready_iff s).2 (.inl hp)
    rw [edge_of_hold hready (.inr h), edge_of_hold hready (.inl rfl)]
  | warmup => rw [edge_of_warmup i hp, edge_of_warmup .idle hp]
  | run => simp [hp, accepts] at h
  | byte =>
    by_cases hb : s.bcnt = 7
    · rw [edge_of_byte_return i hp hb, edge_of_byte_return .idle hp hb]
    · rw [edge_of_byte_gather i hp hb, edge_of_byte_gather .idle hp hb]
  | fault e => rw [edge_of_fault i hp, edge_of_fault .idle hp]

/-- The operands of an INIT that is not accepted are not looked at. -/
theorem exec_init_of_not_accepts {s : State} {k v : Operand} (k' v' : Operand) (h : accepts s.phase (.init k v) = false) :
    exec (.init k v) s = exec (.init k' v') s := by
  have h' : accepts s.phase (.init k' v') = false := by rwa [accepts_init] at h ⊢
  rw [exec_of_not_accepts h, exec_of_not_accepts h']

/-- Ports with the code of a command decode to it, INIT taking its operands from the ports. -/
theorem decode_of_cmd (p : Pins) :
    (p.cmd = 0b00 → decode p = .idle) ∧ (p.cmd = 0b01 → decode p = .init p.key p.iv) ∧
      (p.cmd = 0b10 → decode p = .nextBit) ∧ (p.cmd = 0b11 → decode p = .nextByte) := by
  refine ⟨?_, ?_, ?_, ?_⟩ <;> intro hcmd <;> simp [decode, hcmd]

/-- Settles O1: the four codes, and both INITs of a phase that accepts none acting as IDLE. -/
theorem commandCodes : Obligations.CommandCodes := by
  unfold Obligations.CommandCodes
  exact ⟨decode_of_cmd, fun _ _ _ k' v' h => exec_init_of_not_accepts k' v' h⟩

/-- Settles O2: decoding after encoding, `rst`, and the operand ports of an INIT. -/
theorem decodeAfterEncode : Obligations.DecodeAfterEncode := by
  unfold Obligations.DecodeAfterEncode
  intro i
  refine ⟨decode_encode i, encode_rst i, ?_⟩
  rintro k v rfl
  exact ⟨rfl, rfl⟩

/-- A table word that is read as a command is the one its ports decode to. -/
theorem decode_tablePins {nbits w : Nat} {i : Instr} (h : decodeTableWord nbits w = some i) :
    decode (tablePins nbits w) = i := by
  rw [decodeTableWord] at h
  split at h
  · exact Option.some.inj h
  · cases h

/-- With a table word on the ports the next step runs the command it is read as. -/
theorem step_withFetchWord {nbits w : Nat} {i : Instr} (s : State) (h : decodeTableWord nbits w = some i) :
    step (s.withFetchWord nbits w) = exec i (s.setPins s.pins.tail) := by
  rw [State.withFetchWord, step_setPins_cons s _ rfl, decode_tablePins h]

/-- Settles O3: the words of the table by evaluation, and the presentation of any word that is a command. -/
theorem tableWords : Obligations.TableWords := by
  unfold Obligations.TableWords
  exact ⟨by decide, by decide, by decide, by decide, by decide, by decide, fun s _ _ _ h => step_withFetchWord s h⟩

/-- The table of 30_encoding.md R54: RUN accepts every command, UNINIT only IDLE and INIT, no other phase any. -/
theorem accepts_iff (p : Phase) (i : Instr) :
    accepts p i = true ↔ p = .run ∨ (p = .uninit ∧ (i = .idle ∨ ∃ k v, i = .init k v)) := by
  cases p with
  | uninit => cases i <;> simp [accepts]
  | _ => simp [accepts]

/-- Only a ready engine accepts a command. -/
theorem ready_of_accepts {i : Instr} {s : State} (h : accepts s.phase i = true) : s.ready = true := by
  obtain hp | ⟨hp, -⟩ := (accepts_iff s.phase i).1 h
  · exact (ready_iff s).2 (.inr hp)
  · exact (ready_iff s).2 (.inl hp)

/-- Only a live generator accepts a command that draws from it. -/
theorem run_of_accepts_drawing {i : Instr} {s : State} (hi : drawsOnly i = true) (h : accepts s.phase i = true) :
    s.phase = .run := by
  obtain hp | ⟨-, rfl | ⟨k, v, rfl⟩⟩ := (accepts_iff s.phase i).1 h
  · exact hp
  · simp [drawsOnly] at hi
  · simp [drawsOnly] at hi

/-- An edge with `rst` high resets, whatever else is on the ports. -/
theorem step_setPins_cons_of_rst {p : Pins} (s : State) (ps : List Pins) (hrst : p.rst = true) :
    step (s.setPins (p :: ps)) = .next (State.reset.setPins ps) := by
  simp [step, hrst, resetEdge]

/-- What an accepted command starts: INIT loads, NEXTBIT returns at once, NEXTBYTE goes on in BYTE, IDLE does nothing. -/
theorem edge_of_accepts {i : Instr} {s : State} (h : accepts s.phase i = true) :
    (∀ k v, i = .init k v → (edge i s).phase = .warmup ∧ (edge i s).reg = load k v) ∧
      (i = .nextBit → (edge i s).doutValid = true) ∧ (i = .nextByte → (edge i s).phase = .byte) ∧
      (i = .idle → edge i s = s.setDoutValid false) := by
  have hready := ready_of_accepts h
  refine ⟨?_, ?_, ?_, ?_⟩
  · rintro k v rfl
    rw [edge_init_of_ready k v hready]
    exact ⟨rfl, rfl⟩
  · rintro rfl
    rw [edge_nextBit_of_run (run_of_accepts_drawing rfl h)]
  · rintro rfl
    rw [edge_nextByte_of_run (run_of_accepts_drawing rfl h)]
  · rintro rfl
    exact edge_of_hold hready (.inl rfl)

/-- Settles O7: the table, a dropped command, an accepted one, and an edge with `rst` low or high. -/
theorem acceptanceTable : Obligations.AcceptanceTable := by
  unfold Obligations.AcceptanceTable
  intro s i
  refine ⟨accepts_iff s.phase i, exec_of_not_accepts, fun h => ⟨edge i s, exec_eq_edge i s, edge_of_accepts h⟩, ?_⟩
  rintro p ps rfl
  refine ⟨step_setPins_cons s ps, fun hrst => ?_⟩
  rw [step_setPins_cons_of_rst s ps hrst, step_setPins_cons_of_rst s ps rfl]

end Sys2Proof.Machine
end

section
/-!
PROOF. What a live generator returns when the same command is given over and over: NEXTBIT the keystream bit by bit, NEXTBYTE
the same bits by eights (42_keystream_output.md R91, R94, R98).
-/

namespace Sys2Proof.Machine

/-- The stream goes on from the register its first bits leave. -/
theorem keystream_add (m n : Nat) (r : Reg) : keystream (m + n) r = keystream m r ++ keystream n (stepMany m r) := by
  induction m generalizing r with
  | zero => rw [Nat.zero_add]; rfl
  | succ m ih => rw [Nat.succ_add, keystream, ih]; rfl

/-- A bit extended to a byte stands at position 0. -/
theorem zext8_getLsbD (z : Bool) (k : Nat) : (zext8 z).getLsbD k = (decide (k = 0) && z) := by
  cases k with
  | zero => simp [zext8]
  | succ k => simp [zext8]

/-- Packed from position `n` on, bit `k` of the byte is entry `k - n` of the list. -/
theorem packFrom_getLsbD (zs : List Bool) (n : Nat) {k : Nat} (hk : k < 8) :
    (packFrom n zs).getLsbD k = (decide (n ≤ k) && zs.getD (k - n) false) := by
  induction zs generalizing n with
  | nil => simp [packFrom]
  | cons z zs ih =>
    rw [packFrom, BitVec.getLsbD_or, BitVec.getLsbD_shiftLeft, zext8_getLsbD, ih]
    obtain hlt | rfl | hgt := Nat.lt_trichotomy k n
    · simp [hlt, Nat.not_le.2 hlt, Nat.not_le.2 (Nat.lt_succ_of_lt hlt)]
    · simp [hk]
    · have hback : k - n = (k - (n + 1)) + 1 := by omega
      have hge : ¬k < n := by omega
      simp [hk, hge, hback, Nat.le_of_lt hgt, Nat.succ_le_of_lt hgt]

/-- A byte packed from eight bits holds them in the order produced (42_keystream_output.md R93). -/
theorem bits_packFrom {zs : List Bool} (h : zs.length = 8) : (List.range 8).map (packFrom 0 zs).getLsbD = zs := by
  refine List.ext_getElem (by simp [h]) fun k hk _ => ?_
  have hk8 : k < 8 := by simpa using hk
  rw [List.getElem_map, List.getElem_range, packFrom_getLsbD zs 0 hk8]
  simp [h, hk8]

/-- NEXTBIT given `n` times returns the first `n` bits of the stream and leaves the register `n` steps on. -/
theorem opRun_replicate_nextBit (n : Nat) (r : Reg) :
    opRun Config.wiring (List.replicate n .nextBit) { ophase := .run, reg := r } =
      ({ ophase := .run, reg := stepMany n r }, (keystream n r).map .bit) := by
  induction n generalizing r with
  | zero => rfl
  | succ n ih => simp [List.replicate_succ, opRun, opExec, ih, stepMany, keystream]

/-- NEXTBYTE given `n` times returns `n` bytes that hold the first `8n` bits of the stream, and leaves the register `8n` steps
on. -/
theorem opRun_replicate_nextByte (n : Nat) (r : Reg) :
    ∃ bytes : List Byte,
      opRun Config.wiring (List.replicate n .nextByte) { ophase := .run, reg := r } =
        ({ ophase := .run, reg := stepMany (8 * n) r }, bytes.map .byte) ∧
      bytes.length = n ∧ bytes.flatMap (fun b => (List.range 8).map b.getLsbD) = keystream (8 * n) r := by
  induction n generalizing r with
  | zero => exact ⟨[], rfl, rfl, rfl⟩
  | succ n ih =>
    obtain ⟨bytes, hrun, hlength, hbits⟩ := ih (stepMany 8 r)
    have hsteps : 8 * (n + 1) = 8 + 8 * n := by omega
    refine ⟨packFrom 0 (keystream 8 r) :: bytes, ?_, by simp [hlength], ?_⟩
    · simp [List.replicate_succ, opRun, opExec, hrun, hsteps, stepMany_add]
    · rw [List.flatMap_cons, hbits, bits_packFrom (keystream_length 8 r), hsteps, keystream_add]

end Sys2Proof.Machine
end

section
/-!
PROOF. The pseudo-commands of the written form (30_encoding.md R63): RESET at the ports, and a repetition as a program of single
commands, so that the agreement of the levels gives what it returns.
-/

namespace Sys2Proof.Machine

/-- RESET takes one edge, returns nothing, and leaves a ready engine that the host does not wait for. -/
theorem runProgram_reset (s : State) : runProgram [.reset] s = some (State.reset.setPins s.pins, []) := by
  have hdrive : driveAct .reset (s, []) = some (State.reset.setPins s.pins, []) := by
    rw [driveAct, drive, step_setPins_cons_of_rst s s.pins rfl]
    rfl
  have hacts : driveActs ([Line.reset].flatMap Line.expand) (s, []) = some (State.reset.setPins s.pins, []) := by
    simp [Line.expand, driveActs, hdrive]
  rw [runProgram, hacts]
  exact driveUntilReady_ready _ _ rfl

/-- Lines of single commands without idle edges are acts that wait for `ready`, one per command. -/
theorem flatMap_expand_replicate (n : Nat) (i : Instr) :
    ((List.replicate n (i, 0)).flatMap fun c => [Line.command c.1, Line.wait c.2]).flatMap Line.expand =
      List.replicate n (.whenReady i) := by
  induction n with
  | zero => rfl
  | succ n ih =>
    rw [List.replicate_succ, List.flatMap_cons, List.flatMap_append, ih]
    rfl

/-- A program whose acts repeat one command returns, from a live generator, what the operation level returns for the row of
commands. -/
theorem runProgram_of_expand_replicate {lines : List Line} {n : Nat} {i : Instr} {s : State}
    (hlines : lines.flatMap Line.expand = List.replicate n (.whenReady i)) (hp : s.phase = .run) :
    ∃ t, runProgram lines s =
      some (t, (opRun Config.wiring (List.replicate n i) { ophase := .run, reg := s.reg }).2.map Value.onDout) := by
  obtain ⟨t, vs, hrun, -, hvs⟩ :=
    levelsAgree (List.replicate n (i, 0)) s _ ((ready_iff s).2 (.inr hp)) (opView_run hp)
  refine ⟨t, ?_⟩
  rw [List.map_replicate] at hvs
  rw [← hvs, ← hrun, runProgram, runProgram, hlines, flatMap_expand_replicate]

/-- NEXTBITS returns that many bits of the stream, each in bit 0 of a value on `dout`. -/
theorem runProgram_nextBits (n : Nat) {s : State} (hp : s.phase = .run) :
    ∃ t, runProgram [.nextBits n] s = some (t, (keystream n s.reg).map zext8) := by
  obtain ⟨t, hrun⟩ := runProgram_of_expand_replicate (lines := [.nextBits n]) (by rw [List.flatMap_singleton]; rfl) hp
  rw [opRun_replicate_nextBit, List.map_map] at hrun
  exact ⟨t, hrun⟩

/-- NEXTBYTES returns that many bytes, which hold the stream in order. -/
theorem runProgram_nextBytes (n : Nat) {s : State} (hp : s.phase = .run) :
    ∃ t bytes, runProgram [.nextBytes n] s = some (t, bytes) ∧ bytes.length = n ∧
      bytes.flatMap (fun b => (List.range 8).map b.getLsbD) = keystream (8 * n) s.reg := by
  obtain ⟨t, hrun⟩ := runProgram_of_expand_replicate (lines := [.nextBytes n]) (by rw [List.flatMap_singleton]; rfl) hp
  obtain ⟨bytes, hop, hlength, hbits⟩ := opRun_replicate_nextByte n s.reg
  have hdout : (bytes.map Value.byte).map Value.onDout = bytes := by
    rw [List.map_map]
    exact List.map_id bytes
  rw [hop, hdout] at hrun
  exact ⟨t, bytes, hrun, hlength, hbits⟩

/-- Settles O52: RESET at the ports, the expansions, and the two repetitions on a live generator. -/
theorem pseudoCommands : Obligations.PseudoCommands := by
  unfold Obligations.PseudoCommands
  refine ⟨runProgram_reset, fun _ _ => ⟨rfl, rfl⟩, fun _ => ⟨rfl, rfl, rfl⟩, fun s n hp => ?_⟩
  obtain ⟨t, bytes, hbytes, hlength, hstream⟩ := runProgram_nextBytes n hp
  obtain ⟨u, hbits⟩ := runProgram_nextBits n hp
  have hzero : ((keystream n s.reg).map zext8).map (fun b => b.getLsbD 0) = keystream n s.reg := by
    simp [Function.comp_def, -BitVec.getLsbD_eq_getElem, zext8_getLsbD]
  exact ⟨t, u, bytes, _, hbytes, hlength, hbits, by rw [List.length_map, keystream_length], hzero, hstream⟩

end Sys2Proof.Machine
end

section
/-!
PROOF. RESOLVE as an equation between a cell number and its position (40_bit_addressing.md R67), and what follows for the bounds
check (R70) and for the map from the cells onto the positions off the pad (R45).
-/

namespace Sys2Proof.Machine

theorem legalCell_eq_false_iff (i : Nat) : legalCell i = false ↔ i < 1 ∨ 288 < i := by
  rw [← Bool.not_eq_true, legalCell_iff]
  omega

/-- Cell `i` resolves to the position `o` bits above the low end of word `k`, which ends with cell `64 (k + 1)`. -/
theorem resolve_eq_ok_iff (i k o : Nat) : resolve i = .ok (k, o) ↔ o < 64 ∧ i = 64 * (k + 1) - o ∧ i ≤ 288 := by
  constructor
  · intro h
    have hl := legalCell_of_resolve_ok h
    obtain ⟨hlo, hhi⟩ := (legalCell_iff i).1 hl
    obtain ⟨rfl, rfl⟩ := Prod.mk.inj (Except.ok.inj ((resolve_of_legal hl).symm.trans h))
    exact ⟨by omega, by omega, hhi⟩
  · rintro ⟨ho, rfl, hi⟩
    exact resolve_of_position ho hi

theorem exists_resolve_of_legal {i : Nat} (h : legalCell i = true) : ∃ k o, resolve i = .ok (k, o) :=
  ⟨_, _, resolve_of_legal h⟩

/-- A legal cell number stands in one of the five words. -/
theorem word_le_of_resolve {i k o : Nat} (h : resolve i = .ok (k, o)) : k ≤ 4 := by
  obtain ⟨ho, rfl, hi⟩ := (resolve_eq_ok_iff i k o).1 h
  omega

theorem resolve_injective {i j k o : Nat} (hi : resolve i = .ok (k, o)) (hj : resolve j = .ok (k, o)) : i = j := by
  obtain ⟨-, rfl, -⟩ := (resolve_eq_ok_iff i k o).1 hi
  obtain ⟨-, rfl, -⟩ := (resolve_eq_ok_iff j k o).1 hj
  rfl

/-- The positions resolved to are those of the five words without the low half of word 4, the pad. -/
theorem exists_resolve_iff (k o : Nat) : (∃ i, resolve i = .ok (k, o)) ↔ k ≤ 4 ∧ o ≤ 63 ∧ (k = 4 → 32 ≤ o) := by
  simp only [resolve_eq_ok_iff]
  constructor
  · rintro ⟨i, ho, rfl, hi⟩
    omega
  · rintro ⟨hk, ho, hpad⟩
    exact ⟨_, by omega, rfl, by omega⟩

/-- Settles O18: the bounds check, the formula, and its corner cases by evaluation. -/
theorem resolveDecoder : Obligations.ResolveDecoder := by
  unfold Obligations.ResolveDecoder
  exact ⟨fun i h => resolve_of_illegal ((legalCell_eq_false_iff i).2 h),
    fun i hlo hhi => resolve_of_legal ((legalCell_iff i).2 ⟨hlo, hhi⟩), rfl, rfl, rfl, rfl, rfl, rfl, rfl⟩

/-- Settles O19: a position is one cell's at most, and some cell's when it is off the pad. -/
theorem resolveIsABijection : Obligations.ResolveIsABijection := by
  unfold Obligations.ResolveIsABijection
  exact ⟨fun _ _ _ _ => resolve_injective, exists_resolve_iff⟩

end Sys2Proof.Machine
end

section
/-!
PROOF. GETBIT as a shift of the resolved word (40_bit_addressing.md R68), with the checks of the index and of the word (R70,
R71).
-/

namespace Sys2Proof.Machine

theorem wordAt_of_le (s : Reg) (i : Nat) {k : Nat} (hk : k ≤ 4) : wordAt s i k = .ok (word s k) :=
  if_pos (Nat.lt_succ_of_le hk)

theorem wordAt_of_gt (s : Reg) (i : Nat) {k : Nat} (hk : 4 < k) : wordAt s i k = .error (.contractFailure i) :=
  if_neg (Nat.not_lt.2 hk)

/-- GETBIT shifts the resolved word right and takes its lowest bit. -/
theorem getBit_of_resolve (s : Reg) {i k o : Nat} (h : resolve i = .ok (k, o)) :
    getBit s i = .ok ((word s k >>> o).getLsbD 0) := by
  simp only [getBit, h, wordAt_of_le s i (word_le_of_resolve h)]

/-- Settles O23: the cell, the shift, the check of the index and the check of the word. -/
theorem getBitReadsTheCell : Obligations.GetBitReadsTheCell := by
  unfold Obligations.GetBitReadsTheCell
  exact fun s i => ⟨fun hlo hhi => getBit_of_legal s ((legalCell_iff i).2 ⟨hlo, hhi⟩), fun _ _ => getBit_of_resolve s,
    fun h => getBit_of_illegal s ((legalCell_eq_false_iff i).2 h), fun _ => ⟨wordAt_of_le s i, wordAt_of_gt s i⟩⟩

end Sys2Proof.Machine
end

section
/-!
PROOF. SETBIT (40_bit_addressing.md R69): in words it is a mask and an OR on one word, the other four staying; in cells, which
the words hold and which fix the register, it is one write.
-/

namespace Sys2Proof.Machine

/-- The word after a write of `v` at offset `o`: the bit masked, the new one ORed in (40_bit_addressing.md R69). -/
def wordWithBit (x : Word) (o : Nat) (v : Bool) : Word := (x &&& ~~~(1#64 <<< o)) ||| (bitWord v <<< o)

/-- SETBIT puts the resolved word back with the bit written. -/
theorem setBit_of_resolve (s : Reg) (v : Bool) {i k o : Nat} (h : resolve i = .ok (k, o)) :
    setBit s i v = .ok (putWord s k (wordWithBit (word s k) o v)) := by
  simp only [setBit, h, wordAt_of_le s i (word_le_of_resolve h), wordWithBit]

/-- The write of a bit leaves the other 63 bits of the word. -/
theorem wordWithBit_getLsbD (x : Word) (v : Bool) (o : Nat) {b : Nat} (hb : b < 64) :
    (wordWithBit x o v).getLsbD b = if b = o then v else x.getLsbD b := by
  simp only [wordWithBit, bitWord, BitVec.getLsbD_or, BitVec.getLsbD_and, BitVec.getLsbD_not, BitVec.getLsbD_shiftLeft,
    BitVec.getLsbD_setWidth, BitVec.getLsbD_ofBool, BitVec.getLsbD_one]
  obtain hlt | rfl | hgt := Nat.lt_trichotomy b o
  · simp [hb, hlt, hlt.ne]
  · simp [hb]
  · simp [hb, hgt.ne', Nat.sub_ne_zero_of_lt hgt]

/-- Off the pad, the string after a word is put back holds that word at its place and its old bits elsewhere. -/
theorem storage_putWord_getLsbD (s : Reg) (k : Nat) (x : Word) {b : Nat} (hlo : 32 ≤ b) (hhi : b < 320) :
    (storage (putWord s k x)).getLsbD b =
      if 64 * (4 - k) ≤ b ∧ b < 64 * (4 - k) + 64 then x.getLsbD (b - 64 * (4 - k)) else (storage s).getLsbD b := by
  have hstored : (storage (putWord s k x)).getLsbD b = (putWord s k x).getLsbD (b - 32) := by
    rw [storage, BitVec.getLsbD_append, if_neg (Nat.not_lt.2 hlo)]
  have hcell : b - 32 < 288 := by omega
  rw [hstored]
  simp only [putWord, BitVec.getLsbD_extractLsb', BitVec.getLsbD_or, BitVec.getLsbD_and, BitVec.getLsbD_not,
    BitVec.getLsbD_shiftLeft, BitVec.getLsbD_setWidth, BitVec.getLsbD_allOnes, Config.wordBits, Config.npad, Config.ncell,
    Nat.add_sub_cancel' hlo, hhi, hcell, decide_true, Bool.true_and]
  obtain hbelow | habove := Nat.lt_or_ge b (64 * (4 - k))
  · simp [hbelow]
  · have hnot : ¬b < 64 * (4 - k) := Nat.not_lt.2 habove
    have hshifted : b - 64 * (4 - k) < 320 := by omega
    by_cases hin : b < 64 * (4 - k) + 64
    · have hbit : b - 64 * (4 - k) < 64 := by omega
      simp [habove, hnot, hin, hbit, hshifted]
    · have hbit : 64 ≤ b - 64 * (4 - k) := by omega
      simp [hnot, hin, hbit]

/-- A word that is 0 on the pad is held as it is put. -/
theorem word_putWord_same (s : Reg) {k : Nat} {x : Word} (hpad : ∀ o, 64 * (4 - k) + o < 32 → x.getLsbD o = false) :
    word (putWord s k x) k = x := by
  refine BitVec.eq_of_getLsbD_eq fun o ho => ?_
  rw [word_getLsbD _ k o ho]
  by_cases hp : 64 * (4 - k) + o < 32
  · rw [storage_getLsbD_pad _ hp, hpad o hp]
  · rw [storage_putWord_getLsbD s k x (Nat.not_lt.1 hp) (by omega), if_pos (by omega), Nat.add_sub_cancel_left]

theorem word_putWord_of_ne (s : Reg) {k l : Nat} (x : Word) (hk : k ≤ 4) (hl : l ≤ 4) (hne : l ≠ k) :
    word (putWord s k x) l = word s l := by
  refine BitVec.eq_of_getLsbD_eq fun o ho => ?_
  rw [word_getLsbD _ l o ho, word_getLsbD _ l o ho]
  by_cases hp : 64 * (4 - l) + o < 32
  · rw [storage_getLsbD_pad _ hp, storage_getLsbD_pad _ hp]
  · rw [storage_putWord_getLsbD s k x (Nat.not_lt.1 hp) (by omega), if_neg (by omega)]

/-- The cells are the whole register. -/
theorem reg_eq_of_cell_eq {r s : Reg} (h : ∀ j, 1 ≤ j → j ≤ 288 → cell r j = cell s j) : r = s := by
  refine BitVec.eq_of_getLsbD_eq fun b hb => ?_
  have hcell := h (288 - b) (by omega) (by omega)
  have hweight : Config.ncell - (288 - b) = b := Nat.sub_sub_self (Nat.le_of_lt hb)
  rwa [cell, cell, hweight] at hcell

/-- SETBIT in words: the resolved word has its bit written, the other four are unchanged. -/
theorem word_of_setBit {s r : Reg} {i k o : Nat} {v : Bool} (h : resolve i = .ok (k, o)) (hr : setBit s i v = .ok r) :
    word r k = wordWithBit (word s k) o v ∧ ∀ l, l ≤ 4 → l ≠ k → word r l = word s l := by
  obtain rfl := Except.ok.inj ((setBit_of_resolve s v h).symm.trans hr)
  obtain ⟨ho, rfl, hi⟩ := (resolve_eq_ok_iff i k o).1 h
  have hpad : ∀ b, 64 * (4 - k) + b < 32 → (wordWithBit (word s k) o v).getLsbD b = false := by
    intro b hb
    rw [wordWithBit_getLsbD _ v o (by omega), if_neg (by omega), word_getLsbD s k b (by omega), storage_getLsbD_pad s hb]
  exact ⟨word_putWord_same s hpad, fun l hl hne => word_putWord_of_ne s _ (word_le_of_resolve h) hl hne⟩

/-- SETBIT in cells: its cell is written, the other 287 are unchanged. -/
theorem cell_of_setBit {s r : Reg} {i j : Nat} {v : Bool} (hi : legalCell i = true) (hr : setBit s i v = .ok r)
    (hj : legalCell j = true) : cell r j = if j = i then v else cell s j := by
  obtain ⟨k, o, hik⟩ := exists_resolve_of_legal hi
  obtain ⟨l, b, hjl⟩ := exists_resolve_of_legal hj
  obtain ⟨hwritten, hother⟩ := word_of_setBit hik hr
  rw [← word_getLsbD_of_resolve r hjl, ← word_getLsbD_of_resolve s hjl]
  by_cases hl : l = k
  · subst hl
    have hplace : j = i ↔ b = o := by
      rw [resolve_eq_ok_iff] at hik hjl
      omega
    rw [hwritten, wordWithBit_getLsbD _ v o ((resolve_eq_ok_iff j l b).1 hjl).1]
    simp only [hplace]
  · have hne : j ≠ i := by
      rintro rfl
      exact hl (Prod.mk.inj (Except.ok.inj (hjl.symm.trans hik))).1
    rw [hother l (word_le_of_resolve hjl) hl, if_neg hne]

/-- SETBIT answers on every legal cell number. -/
theorem exists_setBit_of_legal (s : Reg) (v : Bool) {i : Nat} (hi : legalCell i = true) : ∃ r, setBit s i v = .ok r := by
  obtain ⟨k, o, hik⟩ := exists_resolve_of_legal hi
  exact ⟨_, setBit_of_resolve s v hik⟩

/-- Writing the value a cell holds changes nothing. -/
theorem setBit_of_cell_eq {s : Reg} {i : Nat} {v : Bool} (hi : legalCell i = true) (hv : cell s i = v) :
    setBit s i v = .ok s := by
  obtain ⟨r, hr⟩ := exists_setBit_of_legal s v hi
  suffices h : r = s by rw [hr, h]
  refine reg_eq_of_cell_eq fun j hlo hhi => ?_
  rw [cell_of_setBit hi hr ((legalCell_iff j).2 ⟨hlo, hhi⟩)]
  split
  case isTrue hji => rw [hji, hv]
  case isFalse => rfl

/-- After a write the cell holds the bit written. -/
theorem cell_self_of_setBit {s r : Reg} {i : Nat} {v : Bool} (hi : legalCell i = true) (hr : setBit s i v = .ok r) :
    cell r i = v := by
  rw [cell_of_setBit hi hr hi, if_pos rfl]

/-- Settles O24: the check of the index, the cells, the words, a second write, and a write of the value held. -/
theorem setBitWritesOneCell : Obligations.SetBitWritesOneCell := by
  unfold Obligations.SetBitWritesOneCell
  intro s i v
  refine ⟨fun h => setBit_of_illegal s v ((legalCell_eq_false_iff i).2 h), fun hlo hhi => ?_⟩
  have hi := (legalCell_iff i).2 ⟨hlo, hhi⟩
  obtain ⟨r, hr⟩ := exists_setBit_of_legal s v hi
  refine ⟨r, hr, fun j hjlo hjhi => cell_of_setBit hi hr ((legalCell_iff j).2 ⟨hjlo, hjhi⟩),
    fun _ _ h => word_of_setBit h hr, setBit_of_cell_eq hi (cell_self_of_setBit hi hr), fun hv => ?_⟩
  exact Except.ok.inj (hr.symm.trans (setBit_of_cell_eq hi hv.symm))

end Sys2Proof.Machine
end

section
/-!
PROOF. The document's tests of the decoder (40_bit_addressing.md R75), on RESOLVE by evaluation and on GETBIT and SETBIT by what
they do on any legal and any illegal cell number.
-/

namespace Sys2Proof.Machine

/-- A bit written to a legal cell is read back, and no other cell sees the write. -/
theorem getBit_of_setBit (s : Reg) (v : Bool) {i : Nat} (hi : legalCell i = true) :
    ∃ r, setBit s i v = .ok r ∧ getBit r i = .ok v ∧ ∀ j, 1 ≤ j → j ≤ 288 → j ≠ i → cell r j = cell s j := by
  obtain ⟨r, hr⟩ := exists_setBit_of_legal s v hi
  refine ⟨r, hr, ?_, fun j hlo hhi hne => ?_⟩
  · rw [getBit_of_legal r hi, cell_self_of_setBit hi hr]
  · rw [cell_of_setBit hi hr ((legalCell_iff j).2 ⟨hlo, hhi⟩), if_neg hne]

/-- Settles O53: the vectors on RESOLVE, and GETBIT and SETBIT at the first and last cell and one place outside them. -/
theorem decoderBoundaryTests : Obligations.DecoderBoundaryTests := by
  unfold Obligations.DecoderBoundaryTests
  refine ⟨by decide, fun s => ⟨fun i hi => ?_, fun i hi => ?_⟩⟩
  · have hlegal : legalCell i = true := (by decide : ∀ i ∈ [1, 288], legalCell i = true) i hi
    exact ⟨getBit_of_legal s hlegal, fun v => getBit_of_setBit s v hlegal⟩
  · have hillegal : legalCell i = false := (by decide : ∀ i ∈ [0, 289], legalCell i = false) i hi
    exact ⟨getBit_of_illegal s hillegal, fun v => setBit_of_illegal s v hillegal⟩

end Sys2Proof.Machine
end

section
/-!
PROOF. The decoder as a circuit on nine bits (40_bit_addressing.md R73): on a legal index the slices of `idx - 1` are the word
and the offset of RESOLVE, and the multiplexer has one open line.
-/

namespace Sys2Proof.Machine

theorem decoderOk_eq_legalCell (idx : BitVec 9) : decoderOk idx = legalCell idx.toNat := rfl

theorem decoderSel_iff (idx : BitVec 9) (i : Nat) : decoderSel idx i = true ↔ idx.toNat = i := by
  simp [decoderSel]

/-- From 1 up the subtraction in nine bits does not wrap. -/
theorem toNat_sub_one_of_pos {idx : BitVec 9} (h : 1 ≤ idx.toNat) : (idx - 1).toNat = idx.toNat - 1 := by
  bv_omega

/-- Bits 8..6 of `idx - 1` are its quotient by 64. -/
theorem decoderWord_toNat {idx : BitVec 9} (h : 1 ≤ idx.toNat) : (decoderWord idx).toNat = (idx.toNat - 1) / 64 := by
  have hbound := idx.isLt
  rw [decoderWord, BitVec.extractLsb'_toNat, toNat_sub_one_of_pos h, Nat.shiftRight_eq_div_pow]
  omega

/-- The complement of bits 5..0 of `idx - 1` is 63 less its remainder by 64. -/
theorem decoderOffset_toNat {idx : BitVec 9} (h : 1 ≤ idx.toNat) :
    (decoderOffset idx).toNat = 63 - (idx.toNat - 1) % 64 := by
  rw [decoderOffset, BitVec.toNat_not, BitVec.extractLsb'_toNat, toNat_sub_one_of_pos h, Nat.shiftRight_zero]

/-- The circuit resolves a legal index. -/
theorem resolve_of_decoderOk {idx : BitVec 9} (h : decoderOk idx = true) :
    resolve idx.toNat = .ok ((decoderWord idx).toNat, (decoderOffset idx).toNat) := by
  obtain ⟨hlo, -⟩ := (legalCell_iff idx.toNat).1 h
  rw [decoderWord_toNat hlo, decoderOffset_toNat hlo, resolve_of_legal h]

/-- On a legal index the multiplexer passes the selected cell, the only one whose line is high. -/
theorem getBitCircuit_of_decoderOk (s : Reg) {idx : BitVec 9} (h : decoderOk idx = true) :
    getBitCircuit s idx = cell s idx.toNat := by
  obtain ⟨hlo, hhi⟩ := (legalCell_iff idx.toNat).1 h
  rw [getBitCircuit, h, Bool.true_and, Bool.eq_iff_iff, List.any_eq_true]
  constructor
  · rintro ⟨i, -, hi⟩
    obtain ⟨hsel, hcell⟩ := Bool.and_eq_true_iff.1 hi
    rwa [(decoderSel_iff idx i).1 hsel]
  · intro hcell
    refine ⟨idx.toNat, ?_, ?_⟩
    · rw [List.mem_range'_1]
      simp only [Config.ncell]
      omega
    · rw [(decoderSel_iff idx _).2 rfl, hcell, Bool.true_and]

/-- The gate closes the multiplexer on an illegal index. -/
theorem getBitCircuit_of_not_decoderOk (s : Reg) {idx : BitVec 9} (h : decoderOk idx = false) :
    getBitCircuit s idx = false := by
  rw [getBitCircuit, h, Bool.false_and]

/-- SETBIT on a legal index writes the cell whose select line is high. -/
theorem setBit_of_decoderOk (s : Reg) (v : Bool) {idx : BitVec 9} (h : decoderOk idx = true) :
    ∃ r, setBit s idx.toNat v = .ok r ∧ ∀ i, 1 ≤ i → i ≤ 288 → cell r i = if decoderSel idx i then v else cell s i := by
  obtain ⟨r, hr⟩ := exists_setBit_of_legal s v h
  refine ⟨r, hr, fun i hlo hhi => ?_⟩
  rw [cell_of_setBit h hr ((legalCell_iff i).2 ⟨hlo, hhi⟩)]
  simp only [decoderSel_iff, eq_comm (a := i)]

/-- Settles O20: the valid flag, the slices, the select lines, the multiplexer and the write enable. -/
theorem decoderCircuit : Obligations.DecoderCircuit := by
  unfold Obligations.DecoderCircuit
  refine fun idx => ⟨legalCell_iff idx.toNat, resolve_of_decoderOk, resolve_of_illegal, decoderSel_iff idx, fun s =>
    ⟨fun h => ?_, getBitCircuit_of_not_decoderOk s, fun v => setBit_of_decoderOk s v⟩⟩
  rw [getBit_of_legal s h, getBitCircuit_of_decoderOk s h]

end Sys2Proof.Machine
end

section
/-!
PROOF. The clock update cell by cell (41_clock_update.md R80): the shift moves every cell one place up within its sub-register, and
the three feedback bits enter at cells 1, 94 and 178. Every statement about the next register goes through `cell_clockStep`.
-/

namespace Sys2Proof.Machine

/-- In weights a shift puts its bit in at the top and takes every other bit from one weight up. -/
theorem shiftIn_getLsbD {n : Nat} (b : Bool) (x : BitVec n) {k : Nat} (hk : k < n) :
    (shiftIn b x).getLsbD k = if 1 + k = n then b else x.getLsbD (1 + k) := by
  simp [shiftIn, BitVec.getLsbD_cons, hk]

/-- A sub-register of `n` cells whose last cell has weight `lo`, after a shift: its first cell is put in, and every other takes
its lower neighbour. -/
theorem shiftIn_extractLsb'_getLsbD (s : Reg) (b : Bool) {lo n i : Nat} (hi : 1 ≤ i) (hfirst : 289 ≤ i + lo + n)
    (hlast : i + lo ≤ 288) :
    (shiftIn b (s.extractLsb' lo n)).getLsbD (288 - i - lo) = if i + lo + n = 289 then b else cell s (i - 1) := by
  rw [shiftIn_getLsbD _ _ (by omega)]
  by_cases h : i + lo + n = 289
  · rw [if_pos h, if_pos (by omega)]
  · have hinside : 1 + (288 - i - lo) < n := by omega
    have hweight : lo + (1 + (288 - i - lo)) = Config.ncell - (i - 1) := by simp only [Config.ncell]; omega
    rw [if_neg h, if_neg hinside.ne, BitVec.getLsbD_extractLsb', hweight, cell]
    simp [hinside]

/-- The shift, cell by cell: three cells are put in and every other takes its lower neighbour. -/
theorem cell_shifted (s : Reg) (t1 t2 t3 : Bool) {i : Nat} (hlo : 1 ≤ i) (hhi : i ≤ 288) :
    cell (shifted s t1 t2 t3) i =
      if i = 1 then t3 else if i = 94 then t1 else if i = 178 then t2 else cell s (i - 1) := by
  rw [cell, shifted, BitVec.getLsbD_append, BitVec.getLsbD_append]
  simp only [Config.ncell]
  obtain hA | ⟨hB, hB'⟩ | hC : i ≤ 93 ∨ (94 ≤ i ∧ i ≤ 177) ∨ 178 ≤ i := by omega
  · have hplace : 288 - i - 111 - 84 = 288 - i - 195 := by omega
    rw [if_neg (by omega), if_neg (by omega), hplace, subA, shiftIn_extractLsb'_getLsbD s t3 hlo (by omega) (by omega)]
    simp [show i ≠ 94 by omega, show i ≠ 178 by omega]
  · rw [if_neg (by omega), if_pos (by omega), subB, shiftIn_extractLsb'_getLsbD s t1 hlo (by omega) (by omega)]
    simp [show i ≠ 1 by omega, show i ≠ 178 by omega]
  · rw [if_pos (by omega), subC, ← Nat.sub_zero (288 - i), shiftIn_extractLsb'_getLsbD s t2 hlo (by omega) (by omega)]
    simp [show i ≠ 1 by omega, show i ≠ 94 by omega]

/-- The next value of every cell is its multiplexer's under STEP. -/
theorem cell_clockStep (s : Reg) {i : Nat} (hlo : 1 ≤ i) (hhi : i ≤ 288) :
    cell (clockStep s).1 i = muxCell .step s i :=
  cell_shifted s _ _ _ hlo hhi

theorem muxCell_step_1 (s : Reg) : muxCell .step s 1 = feedback3 (tapBits s) := rfl

theorem muxCell_step_94 (s : Reg) : muxCell .step s 94 = feedback1 (tapBits s) := rfl

theorem muxCell_step_178 (s : Reg) : muxCell .step s 178 = feedback2 (tapBits s) := rfl

/-- A cell that no feedback bit enters takes its lower neighbour. -/
theorem muxCell_step_of_ne (s : Reg) {i : Nat} (h1 : i ≠ 1) (h94 : i ≠ 94) (h178 : i ≠ 178) :
    muxCell .step s i = cell s (i - 1) := by
  simp only [muxCell, if_neg h1, if_neg h94, if_neg h178]

theorem cell_clockStep_of_ne (s : Reg) {i : Nat} (hlo : 2 ≤ i) (hhi : i ≤ 288) (h94 : i ≠ 94) (h178 : i ≠ 178) :
    cell (clockStep s).1 i = cell s (i - 1) := by
  rw [cell_clockStep s (by omega) hhi, muxCell_step_of_ne s (by omega) h94 h178]

/-- Settles O25: STEP is the pure step, whose cells are the multiplexer's. -/
theorem stepFormula : Obligations.StepFormula := by
  unfold Obligations.StepFormula
  refine fun s => ⟨_, _, microStep_wiring s, rfl, ?_, ?_, ?_, ?_, fun i => cell_clockStep_of_ne s⟩
  · simp only [clockStep, stepOn, outputBit, stageA, stageB, stageC, tapBits, Bool.xor_assoc]
  · exact cell_clockStep s (by decide) (by decide)
  · exact cell_clockStep s (by decide) (by decide)
  · exact cell_clockStep s (by decide) (by decide)

end Sys2Proof.Machine
end

section
/-!
PROOF. The word-level form of the step (41_clock_update.md R86). The string is read by places, place `j` having weight `320 - j`:
cell `j` up to place 288, the pad from there on. An overwrite changes one place, and clearing the pad bit is one more overwrite.
-/

namespace Sys2Proof.Machine

/-- The mask of a place is set at that place only. -/
theorem stringBit_getLsbD {i j : Nat} (hi : i ≤ 320) (hlo : 1 ≤ j) (hhi : j ≤ 320) :
    (stringBit i).getLsbD (320 - j) = decide (j = i) := by
  have hplace : ¬320 - j < 320 - i ∧ 320 - j - (320 - i) = 0 ↔ j = i := by omega
  have hrange : 320 - j < 320 := by omega
  simp only [stringBit, BitVec.getLsbD_shiftLeft, BitVec.getLsbD_one, hrange, decide_true, Bool.true_and, ← hplace,
    Bool.decide_and, decide_not, Nat.zero_lt_succ]

/-- An overwrite changes one place of the string. -/
theorem stringPut_getLsbD (r : BitVec 320) (v : Bool) {i j : Nat} (hi : i ≤ 320) (hlo : 1 ≤ j) (hhi : j ≤ 320) :
    (stringPut r i v).getLsbD (320 - j) = if j = i then v else r.getLsbD (320 - j) := by
  have hrange : 320 - j < 320 := by omega
  have hmask := stringBit_getLsbD hi hlo hhi
  simp only [stringPut, BitVec.getLsbD_or, BitVec.getLsbD_and, BitVec.getLsbD_not, hrange, hmask]
  cases v with
  | false => by_cases h : j = i <;> simp [h]
  | true =>
    simp only [if_true, hmask]
    by_cases h : j = i <;> simp [h]

/-- Clearing a place is overwriting it with 0. -/
theorem stringPut_false (r : BitVec 320) (i : Nat) : stringPut r i false = r &&& ~~~stringBit i := by
  simp [stringPut]

/-- The taps read from the string are those of the register. -/
theorem stringTaps_storage (s : Reg) : stringTaps (storage s) = tapBits s := by
  simp (disch := decide) only [stringTaps, tapBits, storage_getLsbD_cell, -Nat.reduceSub]

/-- The word-level form, place by place: four places are overwritten, the first pad bit among them, and every other takes its
lower neighbour. -/
theorem stringStep_getLsbD (r : BitVec 320) {j : Nat} (hlo : 1 ≤ j) (hhi : j ≤ 320) :
    (stringStep r).1.getLsbD (320 - j) =
      if j = 289 then false else if j = 178 then feedback2 (stringTaps r) else if j = 94 then feedback1 (stringTaps r)
      else if j = 1 then feedback3 (stringTaps r) else r.getLsbD (1 + (320 - j)) := by
  simp only [stringStep, ← stringPut_false]
  rw [stringPut_getLsbD _ _ (by decide) hlo hhi, stringPut_getLsbD _ _ (by decide) hlo hhi,
    stringPut_getLsbD _ _ (by decide) hlo hhi, stringPut_getLsbD _ _ (by decide) hlo hhi, BitVec.getLsbD_ushiftRight]

/-- On the places of the cells the word-level form is the multiplexer under STEP. -/
theorem stringStep_storage_getLsbD_cell (s : Reg) {j : Nat} (hlo : 1 ≤ j) (hhi : j ≤ 288) :
    (stringStep (storage s)).1.getLsbD (320 - j) = muxCell .step s j := by
  have hpad : j ≠ 289 := by omega
  rw [stringStep_getLsbD _ hlo (by omega), stringTaps_storage, if_neg hpad]
  by_cases h178 : j = 178
  · rw [if_pos h178, h178, muxCell_step_178]
  by_cases h94 : j = 94
  · rw [if_neg h178, if_pos h94, h94, muxCell_step_94]
  by_cases h1 : j = 1
  · rw [if_neg h178, if_neg h94, if_pos h1, h1, muxCell_step_1]
  have hlower : 1 + (320 - j) = 320 - (j - 1) := by omega
  rw [if_neg h178, if_neg h94, if_neg h1, hlower, storage_getLsbD_cell s (by omega), muxCell_step_of_ne s h1 h94 h178]

/-- The word-level form keeps the pad 0: cell 288 is cleared where it would enter (10_state.md R16). -/
theorem stringStep_storage_getLsbD_pad (s : Reg) {j : Nat} (hlo : 289 ≤ j) (hhi : j ≤ 320) :
    (stringStep (storage s)).1.getLsbD (320 - j) = false := by
  rw [stringStep_getLsbD _ (by omega) hhi]
  by_cases h289 : j = 289
  · rw [if_pos h289]
  · rw [if_neg h289, if_neg (by omega), if_neg (by omega), if_neg (by omega), storage_getLsbD_pad s (by omega)]

/-- Settles O26: the two strings agree on the places of the cells and are 0 on the pad, and the taps are the same. -/
theorem wordLevelStep : Obligations.WordLevelStep := by
  unfold Obligations.WordLevelStep
  intro s
  refine Prod.ext (BitVec.eq_of_getLsbD_eq fun b hb => ?_) (congrArg outputBit (stringTaps_storage s))
  obtain ⟨j, hlo, hhi, rfl⟩ : ∃ j, 1 ≤ j ∧ j ≤ 320 ∧ b = 320 - j := ⟨320 - b, by omega, by omega, by omega⟩
  obtain hcell | hpad : j ≤ 288 ∨ 289 ≤ j := by omega
  · rw [stringStep_storage_getLsbD_cell s hlo hcell, storage_getLsbD_cell _ hcell, cell_clockStep s hlo hcell]
  · rw [stringStep_storage_getLsbD_pad s hpad hhi, storage_getLsbD_pad _ (by omega)]

end Sys2Proof.Machine
end

section
/-!
PROOF. The update multiplexer (41_clock_update.md R81): each row of an edge gives every cell one of the three inputs, under the
select of the phase and the command.
-/

namespace Sys2Proof.Machine

/-- A vector of cells holds at cell `i` what it was made from. -/
theorem ofCells_getLsbD {n : Nat} (f : Nat → Bool) {i : Nat} (hlo : 1 ≤ i) (hhi : i ≤ n) :
    (ofCells n f).getLsbD (n - i) = f i := by
  induction n with
  | zero => omega
  | succ n ih =>
    rw [ofCells, BitVec.getLsbD_concat]
    by_cases hlast : i = n + 1
    · rw [if_pos (by omega), hlast]
    · have hweight : n + 1 - i - 1 = n - i := by omega
      rw [if_neg (by omega), hweight, ih (by omega)]

theorem cell_load (key iv : Operand) {i : Nat} (hlo : 1 ≤ i) (hhi : i ≤ 288) :
    cell (load key iv) i = loadCell Config.wiring key iv i :=
  ofCells_getLsbD _ hlo hhi

theorem selectOf_of_ready {p : Phase} (key iv : Operand) (h : p.ready = true) :
    selectOf p (.init key iv) = .load key iv := by
  cases p with
  | uninit => rfl
  | run => rfl
  | warmup => cases h
  | byte => cases h
  | fault e => cases h

theorem selectOf_of_hold {p : Phase} {i : Instr} (hready : p.ready = true) (hi : i = .idle ∨ accepts p i = false) :
    selectOf p i = .hold := by
  cases p with
  | uninit =>
    cases i with
    | init key iv => simp [accepts] at hi
    | idle => rfl
    | nextBit => rfl
    | nextByte => rfl
  | run =>
    obtain rfl : i = .idle := by simpa [accepts] using hi
    rfl
  | warmup => cases hready
  | byte => cases hready
  | fault e => cases hready

/-- Each row gives every cell its multiplexer's value. -/
theorem EdgeRow.cell_eq_muxCell {i : Instr} {s t : State} (h : EdgeRow i s t) {c : Nat} (hlo : 1 ≤ c) (hhi : c ≤ 288) :
    cell t.reg c = muxCell (selectOf s.phase i) s.reg c := by
  have hstep := cell_clockStep s.reg hlo hhi
  cases h with
  | hold hready hi => rw [selectOf_of_hold hready hi]; rfl
  | loads key iv hready hi => rw [hi, selectOf_of_ready key iv hready]; exact cell_load key iv hlo hhi
  | warmup hp => rw [hp]; exact hstep
  | bit hp hi => rw [hp, hi]; exact hstep
  | byteStart hp hi => rw [hp, hi]; exact hstep
  | byteGather hp => rw [hp]; exact hstep
  | byteReturn hp => rw [hp]; exact hstep
  | faulted e hp => rw [hp]; rfl

/-- Settles O12: a reset gives the zero register; else the rows give the cells, and the select is the table's. -/
theorem updateMultiplexer : Obligations.UpdateMultiplexer := by
  unfold Obligations.UpdateMultiplexer
  intro s t h
  obtain ⟨hrst, rfl⟩ | ⟨hrst, rfl⟩ := step_next_cases h
  · exact ⟨fun _ => rfl, fun hlow => by simp [hrst] at hlow⟩
  · refine ⟨fun hhigh => by simp [hrst] at hhigh, fun _ => ⟨fun c => (edgeRow_edge _ _).cell_eq_muxCell, ?_, ?_, ?_⟩⟩
    · rintro (hp | hp | ⟨hp, hi | hi⟩)
      · rw [hp]; rfl
      · rw [hp]; rfl
      · rw [hp, hi]; rfl
      · rw [hp, hi]; rfl
    · intro k v hready hi
      rw [hi, selectOf_of_ready k v hready]
    · rintro (hf | ⟨hp, hi⟩ | ⟨hp, hi⟩)
      · obtain ⟨e, hp⟩ := (faultFlag_iff s).1 hf
        rw [hp]; rfl
      · have hhold := (init_or_hold_of_uninit _ hp).resolve_left fun ⟨k, v, hinit⟩ => hi k v hinit
        exact selectOf_of_hold ((ready_iff s).2 (.inl hp)) hhold
      · rw [hp, hi]; rfl

end Sys2Proof.Machine
end

section
/-!
PROOF. The software splice (41_clock_update.md R88): the plain shift moves every cell up, also across the two joins, and the three
SETBITs put right the cells where it is not the step.
-/

namespace Sys2Proof.Machine

/-- The plain shift of the whole register, cell by cell. -/
theorem cell_ushiftRight_one (s : Reg) {i : Nat} (hlo : 2 ≤ i) (hhi : i ≤ 288) : cell (s >>> 1) i = cell s (i - 1) := by
  have hweight : 1 + (288 - i) = 288 - (i - 1) := by omega
  rw [cell, cell, BitVec.getLsbD_ushiftRight, Config.ncell, hweight]

/-- A computation that answers hands its value on. The answer is a hypothesis, since the kernel would compare an answer put in
place of a SETBIT with that SETBIT by unfolding it. -/
theorem bind_of_eq_ok {α β : Type} {x : Except Fault α} {a : α} (f : α → Except Fault β) (h : x = .ok a) :
    (x >>= f) = f a := by
  rw [h]
  rfl

/-- Settles O27: the three writes answer, and cell by cell they leave the multiplexer's values. -/
theorem spliceIsTheStep : Obligations.SpliceIsTheStep := by
  unfold Obligations.SpliceIsTheStep
  intro s
  have h1 : legalCell 1 = true := by decide
  have h94 : legalCell 94 = true := by decide
  have h178 : legalCell 178 = true := by decide
  obtain ⟨r1, hr1⟩ := exists_setBit_of_legal (s >>> 1) (feedback3 (tapBits s)) h1
  obtain ⟨r2, hr2⟩ := exists_setBit_of_legal r1 (feedback1 (tapBits s)) h94
  obtain ⟨r3, hr3⟩ := exists_setBit_of_legal r2 (feedback2 (tapBits s)) h178
  have hsplice : spliceStep s = .ok (r3, outputBit (tapBits s)) := by
    rw [spliceStep, bind_of_eq_ok _ hr1, bind_of_eq_ok _ hr2, bind_of_eq_ok _ hr3]
    rfl
  have hcells : r3 = (clockStep s).1 := by
    refine reg_eq_of_cell_eq fun j hlo hhi => ?_
    have hj := (legalCell_iff j).2 ⟨hlo, hhi⟩
    rw [cell_clockStep s hlo hhi, cell_of_setBit h178 hr3 hj, cell_of_setBit h94 hr2 hj, cell_of_setBit h1 hr1 hj]
    by_cases hj1 : j = 1
    · simp [hj1, muxCell]
    · rw [if_neg hj1, cell_ushiftRight_one s (by omega) hhi]
      by_cases hj94 : j = 94 <;> simp [muxCell, hj1, hj94]
  rw [hsplice, hcells]
  rfl

end Sys2Proof.Machine
end

section
/-!
PROOF. The step is a bijection (41_clock_update.md R89): each cell of the register before the step is a function of the next
register, so no two registers step to the same one, and on finitely many registers that is enough.
-/

namespace Sys2Proof.Machine

/-- Cell `i` of the register before the step, read from the register after it: the three cells the shift drops come back out of
the feedback bits, whose other inputs have moved one place up. -/
def unstepCell (r : Reg) (i : Nat) : Bool :=
  if i = 93 then cell r 94 ^^ cell r 67 ^^ (cell r 92 && cell r 93) ^^ cell r 172
  else if i = 177 then cell r 178 ^^ cell r 163 ^^ (cell r 176 && cell r 177) ^^ cell r 265
  else if i = 288 then cell r 1 ^^ cell r 244 ^^ (cell r 287 && cell r 288) ^^ cell r 70
  else cell r (i + 1)

/-- A feedback bit XORed with its other inputs is the dropped cell. -/
theorem xor_feedback_inputs (dropped tap product linear : Bool) :
    ((tap ^^ dropped ^^ product ^^ linear) ^^ tap ^^ product ^^ linear) = dropped := by
  cases tap <;> cases product <;> cases linear <;> simp

/-- The step loses nothing. -/
theorem unstepCell_clockStep (s : Reg) {i : Nat} (hlo : 1 ≤ i) (hhi : i ≤ 288) : unstepCell (clockStep s).1 i = cell s i := by
  obtain ⟨r, z, -, hr, -, h94, h178, h1, hshift⟩ := stepFormula s
  rw [hr, unstepCell]
  split_ifs with h93 h177 h288
  · simp (disch := decide) only [h93, h94, hshift, Nat.reduceSub]
    exact xor_feedback_inputs _ _ _ _
  · simp (disch := decide) only [h177, h178, hshift, Nat.reduceSub]
    exact xor_feedback_inputs _ _ _ _
  · simp (disch := decide) only [h288, h1, hshift, Nat.reduceSub]
    exact xor_feedback_inputs _ _ _ _
  · rw [hshift (i + 1) (by omega) (by omega) (by omega) (by omega), Nat.add_sub_cancel]

theorem clockStep_fst_injective : Function.Injective fun s : Reg => (clockStep s).1 := by
  intro s s' (h : (clockStep s).1 = (clockStep s').1)
  refine reg_eq_of_cell_eq fun i hlo hhi => ?_
  rw [← unstepCell_clockStep s hlo hhi, ← unstepCell_clockStep s' hlo hhi, h]

/-- Settles O28: the step loses nothing, and the three dropped cells are among those recovered. -/
theorem stepIsABijection : Obligations.StepIsABijection := by
  unfold Obligations.StepIsABijection
  have : Finite Reg := Finite.of_injective BitVec.toFin fun _ _ => BitVec.eq_of_toFin_eq
  exact ⟨Finite.injective_iff_bijective.1 clockStep_fst_injective, fun s =>
    ⟨(unstepCell_clockStep s (by decide) (by decide)).symm, (unstepCell_clockStep s (by decide) (by decide)).symm,
      (unstepCell_clockStep s (by decide) (by decide)).symm⟩⟩

end Sys2Proof.Machine
end

section
/-!
PROOF. The degrees of the XOR tree (41_clock_update.md R89). A cell is additive in the register, and so is a XOR of cells, whose
second difference vanishes. That of an AND of two cells is a sum of products of one cell of each register: it does not vanish, but
it is additive in each register, so that the third difference does.
-/

namespace Sys2Proof.Machine

/-- `f` of a sum of registers is the sum of its values. -/
def Additive (f : Reg → Bool) : Prop := ∀ a b, f (a ^^^ b) = (f a ^^ f b)

/-- The second difference of `f` at `a` and `b`. -/
def secondDifference (f : Reg → Bool) (a b : Reg) : Bool := f (a ^^^ b) ^^ f a ^^ f b ^^ f 0

/-- The third difference of `f` at `a`, `b` and `c`. -/
def thirdDifference (f : Reg → Bool) (a b c : Reg) : Bool :=
  f (a ^^^ b ^^^ c) ^^ f (a ^^^ b) ^^ f (a ^^^ c) ^^ f (b ^^^ c) ^^ f a ^^ f b ^^ f c ^^ f 0

/-- Of degree exactly 2 (41_clock_update.md R89). -/
def OfDegreeTwo (f : Reg → Bool) : Prop :=
  (∀ a b c, thirdDifference f a b c = false) ∧ ∃ a b, secondDifference f a b = true

theorem additive_cell (i : Nat) : Additive (cell · i) := fun _ _ => BitVec.getLsbD_xor

section additive

variable {f g : Reg → Bool}

theorem Additive.xor (hf : Additive f) (hg : Additive g) : Additive fun s => f s ^^ g s := by
  intro a b
  simp only [hf a b, hg a b, Bool.xor_assoc, Bool.xor_left_comm]

theorem Additive.and_const (hf : Additive f) (k : Bool) : Additive fun s => f s && k := by
  intro a b
  simp only [hf a b, Bool.and_xor_distrib_right]

theorem Additive.apply_zero (hf : Additive f) : f 0 = false := by
  simpa using hf 0 0

/-- An additive bit is of degree 1. -/
theorem Additive.secondDifference_eq_false (hf : Additive f) (a b : Reg) : secondDifference f a b = false := by
  rw [secondDifference, hf a b, hf.apply_zero, Bool.xor_assoc (f a ^^ f b), Bool.xor_self, Bool.xor_false]

theorem secondDifference_xor (a b : Reg) :
    secondDifference (fun s => f s ^^ g s) a b = (secondDifference f a b ^^ secondDifference g a b) := by
  simp only [secondDifference, Bool.xor_assoc, Bool.xor_left_comm]

/-- The second difference of an AND is the sum of its two mixed products. -/
theorem secondDifference_and (hf : Additive f) (hg : Additive g) (a b : Reg) :
    secondDifference (fun s => f s && g s) a b = ((f a && g b) ^^ (g a && f b)) := by
  simp only [secondDifference, hf a b, hg a b, hf.apply_zero]
  cases f a <;> cases f b <;> cases g a <;> cases g b <;> rfl

/-- The third difference is the failure of the second to be additive in its first register. -/
theorem thirdDifference_eq (a b c : Reg) :
    thirdDifference f a b c = (secondDifference f (a ^^^ b) c ^^ secondDifference f a c ^^ secondDifference f b c) := by
  simp only [thirdDifference, secondDifference]
  cases f c <;> cases f 0 <;>
    simp only [Bool.xor_false, Bool.xor_true, Bool.not_xor, Bool.xor_not, Bool.not_not, Bool.xor_assoc, Bool.xor_left_comm]

/-- A second difference additive in one register leaves no third. -/
theorem thirdDifference_eq_false (h : ∀ c, Additive fun a => secondDifference f a c) (a b c : Reg) :
    thirdDifference f a b c = false := by
  have hadd : secondDifference f (a ^^^ b) c = (secondDifference f a c ^^ secondDifference f b c) := h c a b
  rw [thirdDifference_eq, hadd, Bool.xor_assoc, Bool.xor_self]

end additive

/-- Registers that tell two cells apart. -/
theorem exists_cell_true_and_false {i j : Nat} (hi : legalCell i = true) (hj : legalCell j = true) (hne : j ≠ i) :
    ∃ a : Reg, cell a i = true ∧ cell a j = false := by
  obtain ⟨a, ha⟩ := exists_setBit_of_legal 0 true hi
  refine ⟨a, cell_self_of_setBit hi ha, ?_⟩
  rw [cell_of_setBit hi ha hj, if_neg hne, (additive_cell j).apply_zero]

/-- A bit with one AND of two different cells and otherwise additive inputs is of degree 2. -/
theorem ofDegreeTwo_of_one_and {f g : Reg → Bool} (hf : Additive f) (hg : Additive g) {i j : Nat} (hi : legalCell i = true)
    (hj : legalCell j = true) (hne : j ≠ i) : OfDegreeTwo fun s => f s ^^ (cell s i && cell s j) ^^ g s := by
  have hsecond (a b : Reg) : secondDifference (fun s => f s ^^ (cell s i && cell s j) ^^ g s) a b =
      ((cell a i && cell b j) ^^ (cell a j && cell b i)) := by
    rw [secondDifference_xor, secondDifference_xor, hf.secondDifference_eq_false, hg.secondDifference_eq_false,
      secondDifference_and (additive_cell i) (additive_cell j), Bool.false_xor, Bool.xor_false]
  refine ⟨thirdDifference_eq_false fun c => ?_, ?_⟩
  · simp only [hsecond]
    exact ((additive_cell i).and_const _).xor ((additive_cell j).and_const _)
  · obtain ⟨a, hai, haj⟩ := exists_cell_true_and_false hi hj hne
    obtain ⟨b, hbj, hbi⟩ := exists_cell_true_and_false hj hi hne.symm
    exact ⟨a, b, by rw [hsecond, hai, haj, hbi, hbj]; rfl⟩

theorem additive_stageA : Additive fun s => stageA (tapBits s) := (additive_cell 66).xor (additive_cell 93)

theorem additive_stageB : Additive fun s => stageB (tapBits s) := (additive_cell 162).xor (additive_cell 177)

theorem additive_stageC : Additive fun s => stageC (tapBits s) := (additive_cell 243).xor (additive_cell 288)

/-- Settles O29: the output bit is a XOR of stages, and each feedback bit has one AND beside a stage and a cell. -/
theorem xorTreeDegrees : Obligations.XorTreeDegrees := by
  unfold Obligations.XorTreeDegrees
  have h1 : OfDegreeTwo fun s => feedback1 (tapBits s) :=
    ofDegreeTwo_of_one_and additive_stageA (additive_cell 171) (i := 91) (j := 92) (by decide) (by decide) (by decide)
  have h2 : OfDegreeTwo fun s => feedback2 (tapBits s) :=
    ofDegreeTwo_of_one_and additive_stageB (additive_cell 264) (i := 175) (j := 176) (by decide) (by decide) (by decide)
  have h3 : OfDegreeTwo fun s => feedback3 (tapBits s) :=
    ofDegreeTwo_of_one_and additive_stageC (additive_cell 69) (i := 286) (j := 287) (by decide) (by decide) (by decide)
  refine ⟨(additive_stageA.xor additive_stageB).xor additive_stageC, ?_⟩
  simp only [List.forall_mem_cons]
  exact ⟨h1, h2, h3, List.forall_mem_nil _⟩

end Sys2Proof.Machine
end

section
/-!
PROOF. What a cell outside the fifteen taps can affect (41_clock_update.md R76, R89): nothing reads it in this step, and the shift
moves it one place up, where no feedback bit enters, since the cells below 94 and 178 are taps, and so is cell 288.
-/

namespace Sys2Proof.Machine

theorem tapBits_eq_of_cell_eq {r s : Reg} (h : ∀ j ∈ Config.wiring.taps.toList, cell r j = cell s j) :
    tapBits r = tapBits s := by
  simp only [Taps.toList, Config.wiring, List.forall_mem_cons] at h
  simp only [tapBits, h]

/-- A write to a cell that is no tap is not seen by the taps. -/
theorem tapBits_of_setBit {s r : Reg} {i : Nat} {v : Bool} (hi : legalCell i = true) (htap : i ∉ Config.wiring.taps.toList)
    (hr : setBit s i v = .ok r) : tapBits r = tapBits s := by
  refine tapBits_eq_of_cell_eq fun j hj => ?_
  have hlegal : legalCell j = true := (by decide : ∀ j ∈ Config.wiring.taps.toList, legalCell j = true) j hj
  rw [cell_of_setBit hi hr hlegal, if_neg (ne_of_mem_of_not_mem hj htap)]

/-- Settles O30: the taps do not see the write, so no output or feedback bit does, and the shift moves it one place up. -/
theorem onlyTheTapsMatter : Obligations.OnlyTheTapsMatter := by
  unfold Obligations.OnlyTheTapsMatter
  intro s i v r hlo hhi htap hr
  have hi := (legalCell_iff i).2 ⟨hlo, hhi⟩
  have htaps := tapBits_of_setBit hi htap hr
  refine ⟨congrArg outputBit htaps, ?_⟩
  obtain ⟨h93, h177, h288⟩ : i ≠ 93 ∧ i ≠ 177 ∧ i ≠ 288 :=
    ⟨fun h => htap (h ▸ by decide), fun h => htap (h ▸ by decide), fun h => htap (h ▸ by decide)⟩
  have hnext : legalCell (i + 1) = true := (legalCell_iff _).2 ⟨by omega, by omega⟩
  obtain ⟨r', hr'⟩ := exists_setBit_of_legal (clockStep s).1 v hnext
  suffices h : r' = (clockStep r).1 by rw [hr', h]
  refine reg_eq_of_cell_eq fun j hjlo hjhi => ?_
  rw [cell_of_setBit hnext hr' ((legalCell_iff j).2 ⟨hjlo, hjhi⟩), cell_clockStep s hjlo hjhi, cell_clockStep r hjlo hjhi]
  by_cases hfed : j = 1 ∨ j = 94 ∨ j = 178
  · rw [if_neg (by omega)]
    obtain rfl | rfl | rfl := hfed
    · exact congrArg feedback3 htaps.symm
    · exact congrArg feedback1 htaps.symm
    · exact congrArg feedback2 htaps.symm
  · obtain ⟨h1, h94, h178⟩ : j ≠ 1 ∧ j ≠ 94 ∧ j ≠ 178 := by omega
    rw [muxCell_step_of_ne s h1 h94 h178, muxCell_step_of_ne r h1 h94 h178,
      cell_of_setBit hi hr ((legalCell_iff _).2 ⟨by omega, by omega⟩)]
    exact if_congr (by omega) rfl rfl

end Sys2Proof.Machine
end

section
/-!
PROOF. Packing (42_keystream_output.md R93): the value of a packed byte is the number its bits write, the first of them of weight 1.
-/

namespace Sys2Proof.Machine

theorem zext8_toNat (z : Bool) : (zext8 z).toNat = z.toNat := by
  cases z <;> rfl

/-- Packed from position `n` on, the bits are the base-2 digits of the byte from weight `2 ^ n` on. -/
theorem packFrom_toNat (zs : List Bool) {n : Nat} (hn : n + zs.length ≤ 8) :
    (packFrom n zs).toNat = 2 ^ n * Nat.ofDigits 2 (zs.map Bool.toNat) := by
  induction zs generalizing n with
  | nil => rfl
  | cons z zs ih =>
    rw [List.length_cons] at hn
    have hbit : z.toNat * 2 ^ n < 2 ^ (n + 1) := by
      rw [Nat.pow_succ']
      exact Nat.mul_lt_mul_of_pos_right z.toNat_lt (Nat.two_pow_pos n)
    have hbyte : 2 ^ (n + 1) ≤ 2 ^ 8 := Nat.pow_le_pow_right (by decide) (by omega)
    rw [packFrom, BitVec.toNat_or, BitVec.toNat_shiftLeft, zext8_toNat, Nat.shiftLeft_eq,
      Nat.mod_eq_of_lt (hbit.trans_le hbyte), ih (by omega), Nat.or_comm, ← Nat.two_pow_add_eq_or_of_lt hbit,
      List.map_cons, Nat.ofDigits_cons, Nat.pow_succ]
    ring

/-- Settles O37: bit by bit, and as the number written in base 2. -/
theorem packLeastSignificantFirst : Obligations.PackLeastSignificantFirst := by
  unfold Obligations.PackLeastSignificantFirst
  intro z0 z1 z2 z3 z4 z5 z6 z7
  refine ⟨fun n hn => ?_, ?_⟩
  · rw [pack8, packFrom_getLsbD _ 0 hn, List.getElem?_eq_getElem (by simpa using hn)]
    simp [hn]
  · rw [pack8, packFrom_toNat _ (by simp)]
    simp only [List.map_cons, List.map_nil, Nat.ofDigits_cons, Nat.ofDigits_nil]
    omega

end Sys2Proof.Machine
end

section
/-!
PROOF. Single edges of the keystream commands: NEXTBIT in RUN (42_keystream_output.md R92), each edge of a NEXTBYTE (R95), and
IDLE (R97).
-/

namespace Sys2Proof.Machine

/-- In RUN an edge with IDLE or NEXTBYTE completes no value and leaves `dout` (42_keystream_output.md R92). -/
theorem edge_of_run_without_value {i : Instr} {s : State} (hp : s.phase = .run) (hi : i = .idle ∨ i = .nextByte) :
    (edge i s).doutValid = false ∧ (edge i s).dout = s.dout := by
  obtain rfl | rfl := hi
  · rw [edge_of_hold ((ready_iff s).2 (.inr hp)) (.inl rfl)]
    exact ⟨rfl, rfl⟩
  · rw [edge_nextByte_of_run hp]
    exact ⟨rfl, rfl⟩

/-- NEXTBIT in RUN flags its bit and stays in RUN. -/
theorem edge_nextBit_of_run_flags {s : State} (hp : s.phase = .run) :
    (edge .nextBit s).doutValid = true ∧ (edge .nextBit s).phase = .run := by
  rw [edge_nextBit_of_run hp]
  exact ⟨rfl, hp⟩

/-- Settles O38: the edge of NEXTBIT, and the edge after it by command. -/
theorem nextBitReturnsTheBit : Obligations.NextBitReturnsTheBit := by
  unfold Obligations.NextBitReturnsTheBit
  intro s hp
  have hrun := (edge_nextBit_of_run_flags hp).2
  have hdout : (edge .nextBit s).dout = zext8 (clockStep s.reg).2 := by rw [edge_nextBit_of_run hp]
  obtain ⟨hvalid, hagain⟩ := edge_nextBit_of_run_flags hrun
  refine ⟨edge .nextBit s, exec_eq_edge .nextBit s, edge_nextBit_of_run hp, ?_, fun n hn => ?_, (ready_iff _).2 (.inr hrun),
    ⟨_, exec_eq_edge .nextBit _, hvalid, (ready_iff _).2 (.inr hagain)⟩, ?_⟩
  · rw [hdout, zext8_getLsbD]
    rfl
  · rw [hdout, zext8_getLsbD, decide_eq_false (Nat.ne_of_gt hn), Bool.false_and]
  · rintro u (hu | hu) <;> rw [exec_eq_edge] at hu <;> obtain rfl := Host.Outcome.next.inj hu
    · exact edge_of_run_without_value hrun (.inl rfl)
    · exact edge_of_run_without_value hrun (.inr rfl)

/-- Settles O39: the accepting edge, and an edge in BYTE before and at the eighth step. -/
theorem nextByteEdgeByEdge : Obligations.NextByteEdgeByEdge := by
  unfold Obligations.NextByteEdgeByEdge
  intro s
  refine ⟨fun hp => ?_, fun hp => ⟨by rw [State.ready, hp]; rfl, fun i => ⟨fun hb => ?_, fun hb => ?_⟩⟩⟩
  · rw [exec_eq_edge, edge_nextByte_of_run hp]
  · have hne : s.bcnt ≠ 7 := by bv_omega
    rw [exec_eq_edge, edge_of_byte_gather i hp hne]
  · exact ⟨_, by rw [exec_eq_edge, edge_of_byte_return i hp hb], rfl, rfl⟩

/-- In a busy phase an edge takes one step of the register. -/
theorem edge_reg_of_busy {s : State} (i : Instr) (hp : s.phase = .warmup ∨ s.phase = .byte) :
    (edge i s).reg = (clockStep s.reg).1 := by
  obtain hp | hp := hp
  · rw [edge_of_warmup i hp]
  · by_cases hb : s.bcnt = 7
    · rw [edge_of_byte_return i hp hb]
    · rw [edge_of_byte_gather i hp hb]

/-- A step with IDLE presented to a ready engine only lets `dout_valid` fall and uses the sample up. -/
theorem step_idle_of_ready {s : State} (hready : s.ready = true) (ps : List Pins) :
    step (s.setPins (encode .idle :: ps)) = .next ((s.setDoutValid false).setPins ps) := by
  rw [step_encode, edge_of_hold (s := s.setPins ps) hready (.inl rfl)]
  rfl

/-- Idle edges of a ready engine, one or more, do what a single one does (42_keystream_output.md R97). -/
theorem edges_idle_of_ready {s : State} (hready : s.ready = true) (n : Nat) (rest : List Pins) :
    edges (n + 1) (s.setPins (List.replicate (n + 1) (encode .idle) ++ rest)) =
      .next ((s.setDoutValid false).setPins rest) := by
  induction n generalizing s with
  | zero => exact edges_succ _ 0 (step_idle_of_ready hready rest)
  | succ n ih =>
    rw [List.replicate_succ, List.cons_append, edges_succ _ _ (step_idle_of_ready hready _),
      ih (s := s.setDoutValid false) hready]
    rfl

/-- Settles O43: IDLE in a ready phase and in a busy one, where no command is accepted, and a row of idle edges. -/
theorem idleHolds : Obligations.IdleHolds := by
  unfold Obligations.IdleHolds
  intro s
  refine ⟨fun hready => ?_, fun hp => ⟨edge .idle s, exec_eq_edge .idle s, edge_reg_of_busy .idle hp, fun i => ?_⟩,
    fun hready n rest => edges_idle_of_ready hready n rest⟩
  · rw [exec_eq_edge, edge_of_hold hready (.inl rfl)]
  · have hbusy : s.phase.ready = false := by obtain hp | hp := hp <;> rw [hp] <;> rfl
    rw [exec_of_not_accepts (accepts_of_not_ready i hbusy), exec_eq_edge]

end Sys2Proof.Machine
end

section
/-!
PROOF. A whole NEXTBYTE at the ports (42_keystream_output.md R94, R95, 70_reset_and_hazards.md R144): an engine in BYTE whose
remaining edges keep `rst` low gathers the rest of its byte, whatever else they carry.
-/

namespace Sys2Proof.Machine

/-- With `rst` low an edge is that of the decoded command, on the state with the sample used up. -/
theorem step_of_pins_cons {s : State} {p : Pins} {ps : List Pins} (hpins : s.pins = p :: ps) (hrst : p.rst = false) :
    step s = .next (edge (decode p) (s.setPins ps)) := by
  have hs : s = s.setPins (p :: ps) := by rw [← hpins]; rfl
  rw [hs, step_setPins_cons s ps hrst, exec_eq_edge]
  rfl

/-- The edges that a byte in progress still needs add the bits still due to `acc` and return it. -/
theorem edges_of_byte (qs : List Pins) {s : State} {rest : List Pins} (hp : s.phase = .byte)
    (hpins : s.pins = qs ++ rest) (hcount : s.bcnt.toNat + qs.length = 8) (hrst : NoReset qs) :
    edges qs.length s = .next
      { s with reg := stepMany qs.length s.reg, dout := s.acc ||| packFrom s.bcnt.toNat (keystream qs.length s.reg)
               doutValid := true, acc := 0, bcnt := 0, phase := .run, pins := rest } := by
  induction qs generalizing s with
  | nil =>
    have hlt := s.bcnt.isLt
    rw [List.length_nil] at hcount
    omega
  | cons q qs ih =>
    obtain ⟨hq, hqs⟩ := List.forall_mem_cons.1 hrst
    rw [List.cons_append] at hpins
    rw [List.length_cons] at hcount ⊢
    rw [edges_succ s _ (step_of_pins_cons hpins hq)]
    by_cases hb : s.bcnt = 7
    · have hlast : qs = [] := List.eq_nil_of_length_eq_zero (by bv_omega)
      subst hlast
      rw [edge_of_byte_return (s := s.setPins ([] ++ rest)) (decode q) hp hb]
      simp [stepMany, keystream, packFrom, hb]
    · have hnext : (s.bcnt + 1).toNat = s.bcnt.toNat + 1 := by bv_omega
      rw [edge_of_byte_gather (s := s.setPins (qs ++ rest)) (decode q) hp hb, ih ?_ ?_ ?_ hqs]
      · simp only [State.setPins_reg, State.setPins_acc, State.setPins_bcnt, hnext, stepMany, keystream, packFrom,
          BitVec.or_assoc]
        rfl
      · exact hp
      · rfl
      · rw [State.setPins_bcnt, hnext]
        omega

/-- Settles O40: the accepting edge takes the first bit, and the byte in progress takes the seven others. -/
theorem nextByteOverEightEdges : Obligations.NextByteOverEightEdges := by
  unfold Obligations.NextByteOverEightEdges
  intro s qs rest hp hlength hrst
  rw [edges_succ _ 7 (step_encode .nextByte s (qs ++ rest)), edge_nextByte_of_run (s := s.setPins (qs ++ rest)) hp, ← hlength,
    edges_of_byte qs rfl rfl (by rw [hlength]; rfl) hrst, hlength]
  simp [stepMany, keystream, packFrom, hp]

end Sys2Proof.Machine
end

section
/-!
PROOF. The operation level on a live generator (42_keystream_output.md R91, R94, R96, R98): each call by phase, a byte as eight
bits, at the ports too, and any list of drawing commands as one sequence.
-/

namespace Sys2Proof.Machine

theorem drawsOnly_iff (i : Instr) : drawsOnly i = true ↔ i = .nextBit ∨ i = .nextByte := by
  cases i <;> simp [drawsOnly]

section ByPhase

variable {o : OpState}

theorem opExec_init (key iv : Operand) (h : o.ophase = .uninit ∨ o.ophase = .run) :
    opExec Config.wiring (.init key iv) o = ({ ophase := .run, reg := warm (load key iv) }, none) := by
  obtain h | h := h <;> simp [opExec, h]

theorem opExec_nextBit_of_run (h : o.ophase = .run) :
    opExec Config.wiring .nextBit o = ({ o with reg := (clockStep o.reg).1 }, some (.bit (clockStep o.reg).2)) := by
  simp [opExec, h]

theorem opExec_nextByte_of_run (h : o.ophase = .run) :
    opExec Config.wiring .nextByte o = ({ o with reg := stepMany 8 o.reg }, some (.byte (packFrom 0 (keystream 8 o.reg)))) := by
  simp [opExec, h]

/-- A generator without a key drops every command that draws from it. -/
theorem opExec_drawing_of_uninit {i : Instr} (hi : drawsOnly i = true) (h : o.ophase = .uninit) :
    opExec Config.wiring i o = (o, none) := by
  obtain rfl | rfl := (drawsOnly_iff i).1 hi <;> simp [opExec, h]

theorem opExec_of_fault {e : Fault} (i : Instr) (h : o.ophase = .fault e) : opExec Config.wiring i o = (o, none) := by
  simp [opExec, h]

theorem opExec_idle : opExec Config.wiring .idle o = (o, none) := by
  cases h : o.ophase <;> simp [opExec, h]

end ByPhase

/-- Settles O44: the three calls, and what is dropped. -/
theorem operationLevelCalls : Obligations.OperationLevelCalls := by
  unfold Obligations.OperationLevelCalls
  exact fun s k v => ⟨opExec_init k v, opExec_nextBit_of_run, opExec_nextByte_of_run,
    fun h => ⟨opExec_drawing_of_uninit rfl h, opExec_drawing_of_uninit rfl h⟩, fun _ i h => opExec_of_fault i h, opExec_idle⟩

/-- On a live generator a drawing command returns the next bits of the stream and takes as many steps. -/
theorem opExec_drawing_of_run {i : Instr} (hi : drawsOnly i = true) (r : Reg) :
    ∃ v, opExec Config.wiring i { ophase := .run, reg := r } = ({ ophase := .run, reg := stepMany (drawnBits i) r }, some v) ∧
      v.bits = keystream (drawnBits i) r := by
  obtain rfl | rfl := (drawsOnly_iff i).1 hi
  · exact ⟨_, opExec_nextBit_of_run rfl, rfl⟩
  · exact ⟨_, opExec_nextByte_of_run rfl, bits_packFrom (keystream_length 8 r)⟩

/-- Settles O42, by induction on the commands: each draws the next bits from the register that the ones before it left. -/
theorem oneKeystreamSequence : Obligations.OneKeystreamSequence := by
  unfold Obligations.OneKeystreamSequence
  intro cs
  induction cs with
  | nil => exact fun r _ => ⟨rfl, rfl⟩
  | cons i cs ih =>
    intro r hdraws
    obtain ⟨hi, hcs⟩ := List.forall_mem_cons.1 hdraws
    obtain ⟨v, hnow, hbits⟩ := opExec_drawing_of_run hi r
    obtain ⟨hleaves, hstream⟩ := ih (stepMany (drawnBits i) r) hcs
    rw [streamBits] at hstream
    simp only [opRun, hnow, List.map_cons, List.sum_cons, stepMany_add, keystream_add, hleaves, streamBits, Option.toList_some,
      List.singleton_append, List.flatMap_cons, hbits, hstream, and_self]

/-- Commands one after another without idle edges are acts that wait for `ready`. -/
theorem flatMap_expand_commands (cs : List Instr) :
    ((cs.map fun i => (i, 0)).flatMap fun c => [Line.command c.1, Line.wait c.2]).flatMap Line.expand =
      cs.map .whenReady := by
  induction cs with
  | nil => rfl
  | cons i cs ih =>
    rw [List.map_cons, List.flatMap_cons, List.flatMap_append, ih]
    rfl

/-- A program whose acts are commands one after another leaves, from a ready engine, the state of the operation level and returns
its values. -/
theorem runProgram_of_expand_commands {lines : List Line} {cs : List Instr} {s : State} {o : OpState}
    (hlines : lines.flatMap Line.expand = cs.map .whenReady) (hready : s.ready = true) (hview : s.opView = .between o) :
    ∃ t, runProgram lines s = some (t, (opRun Config.wiring cs o).2.map Value.onDout) ∧
      t.opView = .between (opRun Config.wiring cs o).1 := by
  obtain ⟨t, vs, hrun, hend, hvs⟩ := levelsAgree (cs.map fun i => (i, 0)) s o hready hview
  have hcs : (cs.map fun i => (i, 0)).map Prod.fst = cs := by simp [Function.comp_def]
  rw [hcs] at hend hvs
  refine ⟨t, ?_, hend⟩
  rw [← hvs, ← hrun, runProgram, runProgram, hlines, flatMap_expand_commands]

/-- A NEXTBYTE at the operation level returns the packed byte of the next eight bits. -/
theorem opRun_nextByte (r : Reg) :
    opRun Config.wiring [.nextByte] { ophase := .run, reg := r } =
      ({ ophase := .run, reg := stepMany 8 r }, [.byte (packFrom 0 (keystream 8 r))]) := by
  rw [opRun, opExec_nextByte_of_run rfl]
  rfl

/-- The host reads a row of bits off bit 0 of what is shown on `dout` (30_encoding.md R58). -/
theorem getLsbD_zero_onDout_bits (zs : List Bool) :
    ((zs.map Value.bit).map Value.onDout).map (fun b => b.getLsbD 0) = zs := by
  simp [Function.comp_def, Value.onDout, -BitVec.getLsbD_eq_getElem, zext8_getLsbD]

/-- Settles O41: both sides give eight steps and the next eight bits, at the operation level and so, the levels agreeing, at the
ports. -/
theorem byteEqualsEightBits : Obligations.ByteEqualsEightBits := by
  unfold Obligations.ByteEqualsEightBits
  refine ⟨fun r => ?_, fun s hp => ?_⟩
  · rw [opRun_nextByte, opRun_replicate_nextBit]
    exact ⟨rfl, _, _, rfl, rfl, keystream_length 8 r, rfl⟩
  · have hready := (ready_iff s).2 (.inr hp)
    obtain ⟨t, hbyte, ht⟩ :=
      runProgram_of_expand_commands (lines := [.command .nextByte]) (cs := [.nextByte]) rfl hready (opView_run hp)
    obtain ⟨u, hbits, hu⟩ :=
      runProgram_of_expand_commands (lines := [.nextBits 8]) (cs := List.replicate 8 .nextBit) rfl hready (opView_run hp)
    rw [opRun_nextByte] at hbyte ht
    rw [opRun_replicate_nextBit] at hbits hu
    obtain ⟨htphase, htreg⟩ := toPhase_of_opView_between ht
    obtain ⟨huphase, hureg⟩ := toPhase_of_opView_between hu
    refine ⟨t, u, _, _, hbyte, hbits, htreg.symm.trans hureg, htphase.symm, huphase.symm, ?_, ?_⟩
    · rw [List.length_map, List.length_map, keystream_length]
    · rw [getLsbD_zero_onDout_bits]
      rfl

end Sys2Proof.Machine
end

section
/-!
PROOF. The warm-up at the ports (43_initialization.md R103, R105, R106): while it lasts an edge with `rst` low is a step and a
count, whatever else the ports carry, and the count alone says when it ends.
-/

namespace Sys2Proof.Machine

/-- The first of several edges without a reset has `rst` low; a host with nothing left to present holds it there. -/
theorem sample_rst_of_noReset {s : State} {n : Nat} (h : NoReset (s.pins.take (n + 1))) : (sample s).1.rst = false := by
  cases hpins : s.pins with
  | nil => simp [sample, hpins, Pins.quiet]
  | cons p ps => simpa [sample, hpins] using h p (by simp [hpins])

theorem noReset_take_tail {ps : List Pins} {n : Nat} (h : NoReset (ps.take (n + 1))) : NoReset (ps.tail.take n) := by
  cases ps with
  | nil => simp [NoReset]
  | cons p ps => exact fun q hq => h q (List.mem_cons_of_mem p hq)

/-- The ports do not depend on the register. -/
theorem sample_setReg_fst (s : State) (r : Reg) : (sample (s.setReg r)).1 = (sample s).1 := by
  cases hpins : s.pins <;> simp [sample, hpins]

theorem step_of_rst_high {s : State} (hrst : (sample s).1.rst = true) : step s = .next (State.reset.setPins s.pins.tail) := by
  obtain ⟨-, h⟩ | ⟨hlow, -⟩ := step_cases s
  · rw [h, sample_snd]
    rfl
  · simp [hrst] at hlow

theorem step_of_rst_low {s : State} (hrst : (sample s).1.rst = false) :
    step s = .next (edge (decode (sample s).1) (s.setPins s.pins.tail)) := by
  obtain ⟨hhigh, -⟩ | ⟨-, h⟩ := step_cases s
  · simp [hrst] at hhigh
  · rw [h, sample_snd, exec_eq_edge]

/-- The phase of a warm-up of which `n` steps are done. -/
def warmupPhase (n : Nat) : Phase := if n < 1152 then .warmup else .run

theorem warmupPhase_of_lt {n : Nat} (h : n < 1152) : warmupPhase n = .warmup := if_pos h

/-- A warm-up is ready exactly when its steps are done. -/
theorem warmupPhase_ready (n : Nat) : (warmupPhase n).ready = decide (1152 ≤ n) := by
  by_cases h : n < 1152
  · simp [warmupPhase, h, Phase.ready]
  · simp [warmupPhase, h, Nat.le_of_not_lt h, Phase.ready]

theorem warmupPhase_faulted (n : Nat) : (warmupPhase n).faulted = false := by
  by_cases h : n < 1152 <;> simp [warmupPhase, h, Phase.faulted]

section Warmup

variable {s : State} (hp : s.phase = warmupPhase s.wcnt.toNat)

include hp

/-- An edge of the warm-up with `rst` low is a step and a count, whatever command the ports carry. -/
theorem step_of_warmup (hcount : s.wcnt.toNat < 1152) (hrst : (sample s).1.rst = false) :
    step s = .next
      { s with reg := (clockStep s.reg).1, wcnt := s.wcnt + 1, phase := warmupPhase (s.wcnt + 1).toNat, doutValid := false
               pins := s.pins.tail } := by
  have hphase : (if s.wcnt + 1 = 1152#11 then Phase.run else .warmup) = warmupPhase (s.wcnt + 1).toNat := by
    rw [warmupPhase, ← ite_not]
    exact if_congr (by bv_omega) rfl rfl
  rw [step_of_rst_low hrst, edge_of_warmup (s := s.setPins s.pins.tail) _ (hp.trans (warmupPhase_of_lt hcount)), ← hphase]
  rfl

/-- So many edges of the warm-up without a reset are so many steps (43_initialization.md R105). -/
theorem edges_of_warmup {n : Nat} (hvalid : s.doutValid = false) (hcount : s.wcnt.toNat + n ≤ 1152)
    (hrst : NoReset (s.pins.take n)) :
    edges n s = .next
      { s with reg := stepMany n s.reg, wcnt := s.wcnt + BitVec.ofNat 11 n, phase := warmupPhase (s.wcnt.toNat + n)
               pins := s.pins.drop n } := by
  induction n generalizing s with
  | zero => simp [stepMany, ← hp]
  | succ n ih =>
    have hnext : (s.wcnt + 1).toNat = s.wcnt.toNat + 1 := by bv_omega
    have hwcnt : s.wcnt + 1 + BitVec.ofNat 11 n = s.wcnt + BitVec.ofNat 11 (n + 1) := by bv_omega
    have htotal : s.wcnt.toNat + 1 + n = s.wcnt.toNat + (n + 1) := by omega
    rw [edges_succ _ n (step_of_warmup hp (by omega) (sample_rst_of_noReset hrst)), ih rfl rfl (by rw [hnext]; omega)
      (noReset_take_tail hrst)]
    simp only [hnext, htotal, hwcnt, hvalid, stepMany, List.drop_tail]

/-- Another register in the warm-up leads to the same state but for its register, resets included: an edge with `rst` low goes on
with the warm-up, and a reset forgets the register. -/
theorem edges_setReg_of_warmup {t : State} {n : Nat} (r : Reg) (hcount : s.wcnt.toNat + n ≤ 1152) (h : edges n s = .next t) :
    ∃ r', edges n (s.setReg r) = .next (t.setReg r') := by
  induction n generalizing s r with
  | zero =>
    obtain rfl := Host.Outcome.next.inj h
    exact ⟨r, rfl⟩
  | succ n ih =>
    have hports := sample_setReg_fst s r
    cases hrst : (sample s).1.rst with
    | true =>
      rw [edges_succ _ n (step_of_rst_high hrst)] at h
      exact ⟨t.reg, (edges_succ _ n (step_of_rst_high (hports ▸ hrst))).trans h⟩
    | false =>
      have hnext : (s.wcnt + 1).toNat = s.wcnt.toNat + 1 := by bv_omega
      rw [edges_succ _ n (step_of_warmup hp (by omega) hrst)] at h
      rw [edges_succ _ n (step_of_warmup (s := s.setReg r) hp (by rw [State.setReg_wcnt]; omega) (hports ▸ hrst))]
      exact ih rfl (clockStep r).1 (by rw [hnext]; omega) h

end Warmup

/-- An INIT and the edges that follow, as many as 1152 without a reset: so many steps of the load (43_initialization.md R105). -/
theorem edges_of_init {s : State} (k v : Operand) {ps : List Pins} {n : Nat} (hready : s.ready = true) (hn : n ≤ 1152)
    (hrst : NoReset (ps.take n)) :
    edges (n + 1) (s.setPins (encode (.init k v) :: ps)) = .next
      { reg := stepMany n (load k v), phase := warmupPhase n, wcnt := BitVec.ofNat 11 n, bcnt := 0, acc := 0, dout := 0
        doutValid := false, pins := ps.drop n } := by
  rw [edges_succ _ n (step_encode (.init k v) s ps), edge_init_of_ready (s := s.setPins ps) k v hready,
    edges_of_warmup (by rfl) rfl (by simpa using hn) hrst]
  simp

/-- Settles O34: the load and `n` steps of the warm-up, and at the end a RUN that keeps `wcnt` whatever it accepts but an INIT. -/
theorem initOver1153Edges : Obligations.InitOver1153Edges := by
  unfold Obligations.InitOver1153Edges
  intro s k v qs rest n hphase hlength hrst hn
  have hle : n ≤ qs.length := by omega
  have hfirst : NoReset ((qs ++ rest).take n) := by
    rw [List.take_append_of_le_length hle]
    exact fun p hp => hrst p (List.mem_of_mem_take hp)
  refine ⟨_, edges_of_init k v ((ready_iff s).2 hphase) hn hfirst, ?_, ?_, ?_⟩
  · rw [List.drop_append_of_le_length hle]
    rfl
  · simp only [State.ready, warmupPhase_ready, decide_eq_true_eq]
    omega
  · rintro rfl
    refine ⟨by rw [warm, Config.nwarm], fun i => ⟨by simp [warmupPhase, accepts], fun u hi hu => ?_⟩⟩
    refine (edgeRow_of_exec hu).wcnt_eq ?_ (by simp [warmupPhase])
    rintro ⟨⟨k', v', hinit⟩, -⟩
    exact hi k' v' hinit

/-- Settles O36: the outputs read only what two warm-ups share, and without a reset they are those of so many steps. -/
theorem warmUpIsolation : Obligations.WarmUpIsolation := by
  unfold Obligations.WarmUpIsolation
  intro s r n hs hphase hn
  obtain ⟨hcount, -, -, hdout, hvalid⟩ := (consistent_iff_of_warmup hphase).1 hs
  have hp : s.phase = warmupPhase s.wcnt.toNat := hphase.trans (warmupPhase_of_lt hcount).symm
  have htotal : s.wcnt.toNat + n ≤ 1152 := by omega
  refine ⟨fun t t' ht ht' => ?_, fun hrst => ?_⟩
  · obtain ⟨r', hr'⟩ := edges_setReg_of_warmup hp r htotal ht
    obtain rfl : t.setReg r' = t' := Host.Outcome.next.inj (hr'.symm.trans ht')
    rfl
  · refine ⟨_, edges_of_warmup hp hvalid htotal fun p hmem => hrst p (List.mem_of_mem_take hmem), ?_⟩
    have hlast : 1152 ≤ s.wcnt.toNat + n ↔ n = 1152 - s.wcnt.toNat := by omega
    simp only [State.outputs, State.ready, State.faultFlag, warmupPhase_ready, warmupPhase_faulted, hdout, hvalid, hlast]

end Sys2Proof.Machine
end

section
/-!
PROOF. The load cell by cell (43_initialization.md R101): which range a cell falls in says its value, in operand bits, in bytes,
in port bits and in words (20_memory.md R38, R43).
-/

namespace Sys2Proof.Machine

section Ranges

variable (k v : Operand)

/-- The value of a cell under the load, with the positions of the real wiring. -/
theorem loadCell_wiring (i : Nat) :
    loadCell Config.wiring k v i =
      if i ∈ [286, 287, 288] then true
      else if 94 ≤ i ∧ i < 174 then keyBit v (i - 94)
      else if 1 ≤ i ∧ i < 81 then keyBit k (i - 1)
      else false := rfl

theorem cell_load_key {n : Nat} (hn : n < 80) : cell (load k v) (n + 1) = keyBit k n := by
  have hones : n + 1 ∉ [286, 287, 288] := by simp; omega
  rw [cell_load k v (by omega) (by omega), loadCell_wiring, if_neg hones, if_neg (by omega), if_pos (by omega),
    Nat.add_sub_cancel]

theorem cell_load_iv {n : Nat} (hn : n < 80) : cell (load k v) (94 + n) = keyBit v n := by
  have hones : 94 + n ∉ [286, 287, 288] := by simp; omega
  rw [cell_load k v (by omega) (by omega), loadCell_wiring, if_neg hones, if_pos (by omega), Nat.add_sub_cancel_left]

theorem cell_load_zero {i : Nat} (hi : (81 ≤ i ∧ i ≤ 93) ∨ (174 ≤ i ∧ i ≤ 285)) : cell (load k v) i = false := by
  have hones : i ∉ [286, 287, 288] := by simp; omega
  rw [cell_load k v (by omega) (by omega), loadCell_wiring, if_neg hones, if_neg (by omega), if_neg (by omega)]

theorem cell_load_one {i : Nat} (hlo : 286 ≤ i) (hhi : i ≤ 288) : cell (load k v) i = true := by
  have hones : i ∈ [286, 287, 288] := by simp; omega
  rw [cell_load k v (by omega) hhi, loadCell_wiring, if_pos hones]

/-- The key cells in port bits: cell `i` and port bit `p` add up to 80. -/
theorem cell_load_key_port {i p : Nat} (hlo : 1 ≤ i) (hp : i + p = 80) : cell (load k v) i = k.getLsbD p := by
  obtain ⟨n, rfl⟩ := Nat.exists_eq_add_of_le' hlo
  have hplace : p = 79 - n := by omega
  rw [cell_load_key k v (by omega), keyBit_eq_getLsbD k (by omega), hplace]

/-- The IV cells in port bits: cell `i` and port bit `p` add up to 173. -/
theorem cell_load_iv_port {i p : Nat} (hlo : 94 ≤ i) (hp : i + p = 173) : cell (load k v) i = v.getLsbD p := by
  obtain ⟨n, rfl⟩ := Nat.exists_eq_add_of_le hlo
  have hplace : p = 79 - n := by omega
  rw [cell_load_iv k v (by omega), keyBit_eq_getLsbD v (by omega), hplace]

end Ranges

/-- Operand bit `8 j + b` is bit `7 - b` of byte `j` (20_memory.md R35). -/
theorem keyBit_eq_operandByte_getLsbD (x : Operand) (j : Nat) {b : Nat} (hb : b < 8) :
    keyBit x (8 * j + b) = (operandByte x j).getLsbD (7 - b) := by
  have hbyte : (8 * j + b) / 8 = j := by omega
  have hbit : (8 * j + b) % 8 = b := by omega
  rw [keyBit, hbyte, hbit]

/-! ## The ones of the load -/

/-- The ones of a row of cells are those of its first `m` and of the rest. -/
theorem onesAmong_range'_add (s : Reg) (lo m n : Nat) :
    onesAmong s (List.range' lo (m + n)) = onesAmong s (List.range' lo m) + onesAmong s (List.range' (lo + m) n) := by
  simp only [onesAmong, ← List.range'_append_1, List.countP_append]

/-- In a row of cells that holds the bits `f`, the ones are those of `f`. -/
theorem onesAmong_range' {s : Reg} {f : Nat → Bool} {lo n : Nat} (h : ∀ m, m < n → cell s (lo + m) = f m) :
    onesAmong s (List.range' lo n) = (List.range n).countP f := by
  rw [onesAmong, List.range'_eq_map_range, List.countP_map]
  exact List.countP_congr fun m hm => by simp [h m (List.mem_range.1 hm)]

/-- The load holds the ones of the key, of the IV, and the three set cells. -/
theorem onesAmong_load (k v : Operand) :
    onesAmong (load k v) (List.range' 1 288) = 3 + (List.range 80).countP (keyBit k) + (List.range 80).countP (keyBit v) := by
  have hkey : onesAmong (load k v) (List.range' 1 80) = (List.range 80).countP (keyBit k) :=
    onesAmong_range' fun m hm => by rw [Nat.add_comm, cell_load_key k v hm]
  have hiv : onesAmong (load k v) (List.range' 94 80) = (List.range 80).countP (keyBit v) :=
    onesAmong_range' fun m hm => cell_load_iv k v hm
  have hgap : onesAmong (load k v) (List.range' 81 13) = 0 :=
    onesAmong_range' (f := fun _ => false) fun m hm => cell_load_zero k v (.inl (by omega))
  have htail : onesAmong (load k v) (List.range' 174 112) = 0 :=
    (onesAmong_range' (f := fun _ => false) fun m hm => cell_load_zero k v (.inr (by omega))).trans (by simp)
  have hones : onesAmong (load k v) (List.range' 286 3) = 3 :=
    onesAmong_range' (f := fun _ => true) fun m hm => cell_load_one k v (by omega) (by omega)
  rw [onesAmong_range'_add _ 1 80 208, onesAmong_range'_add _ 81 13 195, onesAmong_range'_add _ 94 80 115,
    onesAmong_range'_add _ 174 112 3, hkey, hgap, hiv, htail, hones]
  omega

/-! ## The words of the load -/

/-- A word is given by its cells and, in word 4, the pad. -/
theorem word_eq_of_cells {s : Reg} {n : Nat} {x : Word}
    (hcells : ∀ i, 64 * n < i → i ≤ 64 * (n + 1) → i ≤ 288 → cell s i = x.getLsbD (64 * (n + 1) - i))
    (hn : n ≤ 4) (hpad : n = 4 → ∀ o, o < 32 → x.getLsbD o = false) : word s n = x := by
  apply BitVec.eq_of_getLsbD_eq
  intro o ho
  by_cases hcell : 64 * (n + 1) - o ≤ 288
  · have hplace : 64 * (n + 1) - (64 * (n + 1) - o) = o := by omega
    have hread := word_getLsbD_cell s (k := n) (i := 64 * (n + 1) - o) (by omega) (by omega) hcell
    rw [hcells _ (by omega) (by omega) hcell, hplace] at hread
    exact hread
  · obtain rfl : n = 4 := by omega
    rw [word_four_getLsbD_pad s (by omega), hpad rfl o (by omega)]

section Words

variable (k v : Operand)

theorem word_load_zero : word (load k v) 0 = k.extractLsb' 16 64 := by
  refine word_eq_of_cells (fun i hlo hhi _ => ?_) (by omega) (by omega)
  rw [BitVec.getLsbD_extractLsb', decide_eq_true (by omega), Bool.true_and]
  exact cell_load_key_port k v (by omega) (by omega)

theorem word_load_one : word (load k v) 1 = k.extractLsb' 0 16 ++ 0#13 ++ v.extractLsb' 45 35 := by
  refine word_eq_of_cells (fun i hlo hhi _ => ?_) (by omega) (by omega)
  simp only [BitVec.getLsbD_append, BitVec.getLsbD_extractLsb', BitVec.getLsbD_zero]
  obtain hkey | hgap | hiv : i ≤ 80 ∨ (81 ≤ i ∧ i ≤ 93) ∨ 94 ≤ i := by omega
  · rw [if_neg (by omega), if_neg (by omega), decide_eq_true (by omega), Bool.true_and]
    exact cell_load_key_port k v (by omega) (by omega)
  · rw [if_neg (by omega), if_pos (by omega)]
    exact cell_load_zero k v (.inl hgap)
  · rw [if_pos (by omega), decide_eq_true (by omega), Bool.true_and]
    exact cell_load_iv_port k v hiv (by omega)

theorem word_load_two : word (load k v) 2 = v.extractLsb' 0 45 ++ 0#19 := by
  refine word_eq_of_cells (fun i hlo hhi _ => ?_) (by omega) (by omega)
  simp only [BitVec.getLsbD_append, BitVec.getLsbD_extractLsb', BitVec.getLsbD_zero]
  obtain hiv | hgap : i ≤ 173 ∨ 174 ≤ i := by omega
  · rw [if_neg (by omega), decide_eq_true (by omega), Bool.true_and]
    exact cell_load_iv_port k v (by omega) (by omega)
  · rw [if_pos (by omega)]
    exact cell_load_zero k v (.inr (by omega))

theorem word_load_three : word (load k v) 3 = 0 := by
  refine word_eq_of_cells (fun i hlo hhi _ => ?_) (by omega) (by omega)
  exact (cell_load_zero k v (.inr (by omega))).trans BitVec.getLsbD_zero.symm

theorem word_load_four : word (load k v) 4 = 0x0000000700000000 := by
  have hjoin : (0x0000000700000000 : Word) = 0#29 ++ BitVec.allOnes 3 ++ 0#32 := by decide
  rw [hjoin]
  refine word_eq_of_cells (fun i hlo hhi hcell => ?_) (by omega) fun _ o ho => ?_ <;>
    simp only [BitVec.getLsbD_append, BitVec.getLsbD_allOnes, BitVec.getLsbD_zero]
  · rw [if_neg (by omega)]
    obtain hgap | hone : i ≤ 285 ∨ 286 ≤ i := by omega
    · rw [if_neg (by omega)]
      exact cell_load_zero k v (.inr (by omega))
    · rw [if_pos (by omega), decide_eq_true (by omega)]
      exact cell_load_one k v hone hcell
  · exact if_pos ho

end Words

/-- Settles O31: the ranges of the load, the same in bytes, its ones range by range, and its words for zero operands. -/
theorem loadCells : Obligations.LoadCells := by
  unfold Obligations.LoadCells
  intro k v
  refine ⟨microLoad_wiring k v, fun n => cell_load_key k v, fun i hlo hhi => cell_load_zero k v (.inl ⟨hlo, hhi⟩),
    fun n => cell_load_iv k v, fun i hlo hhi => cell_load_zero k v (.inr ⟨hlo, hhi⟩), fun i => cell_load_one k v,
    fun j b hj hb => ⟨?_, ?_⟩, onesAmong_load k v, ?_⟩
  · rw [cell_load_key k v (by omega), keyBit_eq_operandByte_getLsbD k j hb]
  · rw [Nat.add_assoc, cell_load_iv k v (by omega), keyBit_eq_operandByte_getLsbD v j hb]
  · rw [word_load_zero, word_load_one, word_load_two, word_load_three, word_load_four]
    decide

/-- A slice of a slice is a slice of the whole. -/
theorem extractLsb'_of_extractLsb' {w a m b n : Nat} (x : BitVec w) (h : b + n ≤ m) :
    (x.extractLsb' a m).extractLsb' b n = x.extractLsb' (a + b) n := by
  apply BitVec.eq_of_getLsbD_eq
  intro i hi
  have hin : b + i < m := by omega
  simp only [BitVec.getLsbD_extractLsb', hi, hin, decide_true, Bool.true_and, Nat.add_assoc]

/-- Settles O32: port bits and words of the load, and IV byte 4 as the part of it in word 1 and the part in word 2. -/
theorem loadInWords : Obligations.LoadInWords := by
  unfold Obligations.LoadInWords
  intro k v
  refine ⟨fun i hlo hhi => cell_load_key_port k v hlo (by omega), fun i hlo hhi => cell_load_iv_port k v hlo (by omega),
    word_load_zero k v, word_load_one k v, word_load_two k v, word_load_three k v, word_load_four k v, ?_, ?_⟩
  · rw [word_load_one, operandByte, BitVec.extractLsb'_append_eq_of_add_le (by decide),
      extractLsb'_of_extractLsb' v (by decide), extractLsb'_of_extractLsb' v (by decide)]
  · rw [word_load_two, operandByte, BitVec.extractLsb'_append_eq_of_le (by decide),
      extractLsb'_of_extractLsb' v (by decide), extractLsb'_of_extractLsb' v (by decide)]

end Sys2Proof.Machine
end

section
/-!
PROOF. INIT on its accepting edge (43_initialization.md R102, R107), and the phase after an edge by phase and command (R109).
-/

namespace Sys2Proof.Machine

/-- Settles O33: an accepted INIT is LOAD. -/
theorem initLoads : Obligations.InitLoads := by
  unfold Obligations.InitLoads
  intro s k v hphase
  rw [exec_eq_edge, edge_init_of_ready k v ((ready_iff s).2 hphase)]

/-- Settles O35: LOAD reads nothing of the state but the samples still to come, so RUN and the reset state give the same. -/
theorem initAgainIsAFreshStart : Obligations.InitAgainIsAFreshStart := by
  unfold Obligations.InitAgainIsAFreshStart
  intro s k v
  refine ⟨fun hrun => ?_, fun e hfault => ⟨by rw [hfault]; rfl, ?_⟩⟩
  · rw [initLoads s k v (.inr hrun), initLoads (State.reset.setPins s.pins) k v (.inl rfl)]
    rfl
  · rw [exec_eq_edge, edge_of_fault _ hfault]

theorem phase_edge_of_hold {i : Instr} {s : State} (hready : s.ready = true) (hi : i = .idle ∨ accepts s.phase i = false) :
    (edge i s).phase = s.phase := by
  rw [edge_of_hold hready hi, State.setDoutValid_phase]

/-- Settles O14: each phase and command by its edge's equation. -/
theorem phaseTransitions : Obligations.PhaseTransitions := by
  unfold Obligations.PhaseTransitions
  intro s i
  refine ⟨edge i s, exec_eq_edge i s, ?_⟩
  cases hp : s.phase with
  | uninit =>
    have hready := (ready_iff s).2 (.inl hp)
    cases i with
    | init k v => rw [edge_init_of_ready k v hready]
    | idle => exact (phase_edge_of_hold hready (.inl rfl)).trans hp
    | nextBit => exact (phase_edge_of_hold hready (.inr (by rw [hp]; rfl))).trans hp
    | nextByte => exact (phase_edge_of_hold hready (.inr (by rw [hp]; rfl))).trans hp
  | warmup => rw [edge_of_warmup i hp]
  | run =>
    have hready := (ready_iff s).2 (.inr hp)
    cases i with
    | init k v => rw [edge_init_of_ready k v hready]
    | idle => exact (phase_edge_of_hold hready (.inl rfl)).trans hp
    | nextBit => exact (edge_nextBit_of_run_flags hp).2
    | nextByte => rw [edge_nextByte_of_run hp]
  | byte =>
    by_cases hb : s.bcnt = 7
    · rw [edge_of_byte_return i hp hb, if_pos hb]
    · rw [edge_of_byte_gather i hp hb, if_neg hb]
      exact hp
  | fault e => rw [edge_of_fault i hp]; exact hp

end Sys2Proof.Machine
end

section
/-!
PROOF. The micro-operations for any wiring (60_exceptions.md R118, R123): STEP and LOAD each answer exactly what the bounds check
on their cells lets through, and the check reports the first illegal cell.
-/

namespace Sys2Proof.Machine

/-- GETBIT hands the cell on, or fails at its own cell number. -/
theorem getBit_bind {α : Type} (s : Reg) (i : Nat) (f : Bool → Except Fault α) :
    (getBit s i >>= f) = if legalCell i then f (cell s i) else .error (.contractFailure i) := by
  cases h : legalCell i with
  | true => exact bind_of_eq_ok f (getBit_of_legal s h)
  | false => rw [getBit_of_illegal s h]; rfl

/-- The check on a list of cells fails at an illegal first cell, and else goes on with the others. -/
theorem checkCells_cons (i : Nat) (is : List Nat) :
    checkCells (i :: is) = if legalCell i then checkCells is else .error (.contractFailure i) := by
  cases h : legalCell i with
  | true => rw [checkCells, resolve_of_legal h]; rfl
  | false => rw [checkCells, resolve_of_illegal h]; rfl

theorem checkCells_cons_bind {α : Type} (i : Nat) (is : List Nat) (f : Unit → Except Fault α) :
    (checkCells (i :: is) >>= f) = if legalCell i then checkCells is >>= f else .error (.contractFailure i) := by
  rw [checkCells_cons]
  split <;> rfl

/-- The check reports the first illegal cell (60_exceptions.md R123). -/
theorem checkCells_of_firstIllegal {cells : List Nat} {i : Nat} (h : FirstIllegal cells i) :
    checkCells cells = .error (.contractFailure i) := by
  obtain ⟨before, after, rfl, hbefore, hi⟩ := h
  induction before with
  | nil => simp [checkCells_cons, hi]
  | cons j before ih =>
    obtain ⟨hj, hbefore⟩ := List.forall_mem_cons.1 hbefore
    simp [checkCells_cons, hj, ih hbefore]

/-- The cells of a register at the taps of a wiring. -/
def cellsAt (w : Taps Nat) (s : Reg) : Taps Bool where
  outA1 := cell s w.outA1
  outA2 := cell s w.outA2
  outB1 := cell s w.outB1
  outB2 := cell s w.outB2
  outC1 := cell s w.outC1
  outC2 := cell s w.outC2
  andA1 := cell s w.andA1
  andA2 := cell s w.andA2
  linB := cell s w.linB
  andB1 := cell s w.andB1
  andB2 := cell s w.andB2
  linC := cell s w.linC
  andC1 := cell s w.andC1
  andC2 := cell s w.andC2
  linA := cell s w.linA

/-- The fifteen reads of STEP fail as the check on the taps in table order does, and else answer the tap cells. -/
theorem readTaps_eq_checkCells_bind (w : Taps Nat) (s : Reg) :
    readTaps w s = checkCells w.toList >>= fun _ => .ok (cellsAt w s) := by
  simp only [readTaps, getBit_bind, Taps.toList, checkCells_cons_bind]
  rfl

theorem microStep_of_legal {w : Wiring} (s : Reg) (h : ∀ i ∈ w.taps.toList, legalCell i = true) :
    microStep w s = .ok (stepOn s (cellsAt w.taps s)) := by
  have hread : readTaps w.taps s = .ok (cellsAt w.taps s) := by
    rw [readTaps_eq_checkCells_bind, (checkCells_ok_iff _).2 h]
    rfl
  simp only [microStep, hread]

theorem microLoad_of_legal {w : Wiring} (k v : Operand) (h : ∀ i ∈ loadPositions w, legalCell i = true) :
    microLoad w k v = .ok (loadReg w k v) := by
  simp only [microLoad, (checkCells_ok_iff _).2 h]

/-- STEP records the first bad tap in table order. -/
theorem microStep_of_firstIllegal {w : Wiring} {i : Nat} (s : Reg) (h : FirstIllegal w.taps.toList i) :
    microStep w s = .error (.contractFailure i) := by
  have hread : readTaps w.taps s = .error (.contractFailure i) := by
    rw [readTaps_eq_checkCells_bind, checkCells_of_firstIllegal h]
    rfl
  simp only [microStep, hread]

/-- LOAD records the first bad position in the order of its steps (log entry 7). -/
theorem microLoad_of_firstIllegal {w : Wiring} {i : Nat} (k v : Operand) (h : FirstIllegal (loadPositions w) i) :
    microLoad w k v = .error (.contractFailure i) := by
  simp only [microLoad, checkCells_of_firstIllegal h]

end Sys2Proof.Machine
end

section
/-!
PROOF. The engine never faults (60_exceptions.md R118, 41_clock_update.md R87, 40_bit_addressing.md R74): a legal wiring has only
legal taps and load positions, and no row of an edge enters or leaves FAULT.
-/

namespace Sys2Proof.Machine

/-- The cells of an operand are legal when its first and its last cell are. -/
theorem legalCell_of_mem_operand_range {lo i : Nat} (hlo : legalCell lo = true) (hhi : legalCell (lo + 79) = true)
    (hi : i ∈ List.range' lo Config.operandBits) : legalCell i = true := by
  rw [legalCell_iff] at hlo hhi ⊢
  obtain ⟨hle, hlt⟩ := List.mem_range'_1.1 hi
  simp only [Config.operandBits] at hlt
  omega

/-- A legal wiring has only legal taps and only legal load positions. -/
theorem legal_of_wellFormed {w : Wiring} (h : w.wellFormed = true) :
    (∀ i ∈ w.taps.toList, legalCell i = true) ∧ ∀ i ∈ loadPositions w, legalCell i = true := by
  simp only [Wiring.wellFormed, Bool.and_eq_true, List.all_eq_true] at h
  obtain ⟨⟨⟨htaps, hkeyLo, hkeyHi⟩, hivLo, hivHi⟩, hones⟩ := h
  refine ⟨htaps, fun i hi => ?_⟩
  obtain (hkey | hiv) | hone := by simpa only [loadPositions, List.mem_append] using hi
  · exact legalCell_of_mem_operand_range hkeyLo hkeyHi hkey
  · exact legalCell_of_mem_operand_range hivLo hivHi hiv
  · exact hones i hone

theorem faultFlag_of_ready {s : State} (h : s.ready = true) : s.faultFlag = false :=
  not_faulted_of_live (live_of_ready h)

/-- With `rst` low no edge of the engine enters FAULT, and none leaves it. -/
theorem EdgeRow.faultFlag_eq {i : Instr} {s t : State} (h : EdgeRow i s t) : t.faultFlag = s.faultFlag := by
  cases h with
  | hold => rfl
  | loads _ _ hready => exact (faultFlag_of_ready hready).symm
  | warmup hp => simp only [State.faultFlag, hp]; split <;> rfl
  | bit => rfl
  | byteStart hp => simp only [State.faultFlag, hp]; rfl
  | byteGather => rfl
  | byteReturn hp => simp only [State.faultFlag, hp]; rfl
  | faulted => rfl

/-- Every step answers a next state. -/
theorem exists_step_eq_next (s : State) : ∃ t, step s = .next t := by
  cases hrst : (sample s).1.rst with
  | true => exact ⟨_, step_of_rst_high hrst⟩
  | false => exact ⟨_, step_of_rst_low hrst⟩

/-- A step out of a state that is not faulted leads to one that is not. -/
theorem faultFlag_of_step {s t : State} (hstep : step s = .next t) (hs : s.faultFlag = false) : t.faultFlag = false := by
  obtain ⟨-, rfl⟩ | ⟨-, rfl⟩ := step_next_cases hstep
  · rfl
  · exact (edgeRow_edge _ _).faultFlag_eq.trans hs

/-- Settles O48: the check passes on every cell of a legal wiring, and a step is a reset or an edge. -/
theorem engineNeverFaults : Obligations.EngineNeverFaults := by
  unfold Obligations.EngineNeverFaults
  refine ⟨by decide, fun w r k v hw => ?_, fun s => ?_⟩
  · obtain ⟨htaps, hload⟩ := legal_of_wellFormed hw
    exact ⟨⟨_, microStep_of_legal r htaps⟩, _, microLoad_of_legal k v hload⟩
  · obtain ⟨t, hstep⟩ := exists_step_eq_next s
    exact ⟨t, hstep, faultFlag_of_step hstep⟩

end Sys2Proof.Machine
end

section
/-!
PROOF. Entering FAULT for a wiring with a bad cell number (60_exceptions.md R119, R123), at the ports and at the operation level.
-/

namespace Sys2Proof.Machine

section BadCell

variable {w : Wiring} {s : State} {o : OpState} {i : Nat}

/-- An edge whose STEP meets a bad tap leads to FAULT, whatever would have followed the step. -/
theorem stepThen_of_firstIllegal (h : FirstIllegal w.taps.toList i) (k : Reg → Bool → State) :
    stepThen w (s.setDoutValid false) k = faultedAt i s :=
  stepThen_error w _ (microStep_of_firstIllegal _ h)

/-- An edge whose LOAD meets a bad position leads to FAULT. -/
theorem loadEdge_of_firstIllegal (key iv : Operand) (h : FirstIllegal (loadPositions w) i) :
    loadEdge w key iv (s.setDoutValid false) = faultedAt i s :=
  loadEdge_error w _ (microLoad_of_firstIllegal key iv h)

/-- With a bad tap every edge of a busy phase leads to FAULT, whatever the command. -/
theorem onEdge_busy_of_firstIllegal (h : FirstIllegal w.taps.toList i) (hp : s.phase = .warmup ∨ s.phase = .byte)
    (f g : State → State) : onEdge w s f g = faultedAt i s := by
  obtain hp | hp := hp
  · rw [onEdge_warmup hp, warmupEdge, stepThen_of_firstIllegal h]
  · rw [onEdge_byte hp, byteEdge, stepThen_of_firstIllegal h]

/-- With a bad tap a row of steps, one or more, fails at its first. -/
theorem opSteps_of_firstIllegal (h : FirstIllegal w.taps.toList i) {n : Nat} (hn : n ≠ 0) (r : Reg) :
    opSteps w n r = { reg := r, bits := [], failed := some (.contractFailure i) } := by
  obtain ⟨m, rfl⟩ := Nat.exists_eq_succ_of_ne_zero hn
  exact opSteps_succ_error m (microStep_of_firstIllegal r h)

/-- An INIT that the phase accepts is `opInit`, for any wiring. -/
theorem opExec_init_eq_opInit (w : Wiring) (key iv : Operand) (h : o.ophase = .uninit ∨ o.ophase = .run) :
    opExec w (.init key iv) o = opInit w key iv o := by
  obtain h | h := h <;> simp only [opExec, h]

/-- With a bad tap a command that draws leaves the register and returns nothing. -/
theorem opExec_drawing_of_firstIllegal {c : Instr} (h : FirstIllegal w.taps.toList i) (ho : o.ophase = .run)
    (hc : c = .nextBit ∨ c = .nextByte) : opExec w c o = ({ o with ophase := .fault (.contractFailure i) }, none) := by
  obtain rfl | rfl := hc
  · simp only [opExec, ho, opNextBit, microStep_of_firstIllegal o.reg h]
  · simp [opExec, ho, opNextByte, opSteps_of_firstIllegal h, opPhaseAfter]

end BadCell

/-- Settles O45: with a bad tap the drawing commands in RUN and every command in a busy phase; with a bad load position INIT. -/
theorem faultEntry : Obligations.FaultEntry := by
  unfold Obligations.FaultEntry
  intro w s i k v
  refine ⟨fun h => ⟨microStep_of_firstIllegal s.reg h, fun hp => ⟨?_, ?_⟩, fun hp => ?_⟩,
    fun h => ⟨microLoad_of_firstIllegal k v h, fun hp => ?_⟩⟩
  · rw [nextBitEdge, onEdge_run hp, stepThen_of_firstIllegal h]
  · rw [nextByteEdge, onEdge_run hp, stepThen_of_firstIllegal h]
  · have hbusy := onEdge_busy_of_firstIllegal h hp
    exact ⟨hbusy _ _, hbusy _ _, hbusy _ _, hbusy _ _⟩
  · obtain hp | hp := hp
    · rw [initEdge, onEdge_uninit hp, loadEdge_of_firstIllegal k v h]
    · rw [initEdge, onEdge_run hp, loadEdge_of_firstIllegal k v h]

/-- Settles O46: a drawing command and INIT, each ending at its first step, and an INIT whose LOAD fails. -/
theorem operationLevelFault : Obligations.OperationLevelFault := by
  unfold Obligations.OperationLevelFault
  refine fun w s i k v => ⟨fun h => ⟨fun ho c hc => opExec_drawing_of_firstIllegal h ho hc, fun ho hload => ?_⟩, fun h ho => ?_⟩
  · have hsteps := opSteps_of_firstIllegal h (n := Config.nwarm) (by decide) (loadReg w k v)
    simp only [opExec_init_eq_opInit w k v ho, opInit, microLoad_of_legal k v hload, hsteps, opPhaseAfter]
  · simp only [opExec_init_eq_opInit w k v ho, opInit, microLoad_of_firstIllegal k v h]

end Sys2Proof.Machine
end

section
/-!
PROOF. FAULT and the precedence on one edge (60_exceptions.md R120, R121, R122): reset, then FAULT, then a busy phase, then the
command.
-/

namespace Sys2Proof.Machine

/-- In FAULT with `dout_valid` low an edge changes nothing, whatever the command (60_exceptions.md R120). -/
theorem edge_of_quiet_fault {s : State} {e : Fault} (i : Instr) (hp : s.phase = .fault e) (hvalid : s.doutValid = false) :
    edge i s = s := by
  rw [edge_of_fault i hp, ← hvalid]
  rfl

/-- In FAULT edges without a reset only use their samples up. -/
theorem edges_of_quiet_fault {s : State} {e : Fault} (hp : s.phase = .fault e) (hvalid : s.doutValid = false)
    {qs : List Pins} (hqs : NoReset qs) (rest : List Pins) :
    edges qs.length (s.setPins (qs ++ rest)) = .next (s.setPins rest) := by
  induction qs with
  | nil => rfl
  | cons q qs ih =>
    obtain ⟨hq, hqs⟩ := List.forall_mem_cons.1 hqs
    have hstep : step (s.setPins (q :: (qs ++ rest))) = .next (s.setPins (qs ++ rest)) := by
      rw [step_setPins_cons s _ hq, exec_eq_edge, edge_of_quiet_fault (s := s.setPins (qs ++ rest)) _ hp hvalid]
    exact (edges_succ _ _ hstep).trans (ih hqs)

/-- A step from FAULT leaves it exactly when it is a reset (60_exceptions.md R121). -/
theorem step_leaves_fault_iff {s t : State} (hs : s.faultFlag = true) (hstep : step s = .next t) :
    t.faultFlag = false ↔ (sample s).1.rst = true := by
  obtain ⟨hrst, rfl⟩ | ⟨hrst, rfl⟩ := step_next_cases hstep
  · exact iff_of_true rfl hrst
  · have ht := (edgeRow_edge (decode (sample s).1) (s.setPins s.pins.tail)).faultFlag_eq.trans hs
    simp [ht, hrst]

/-- Settles O47: every command dropped, the outputs, any number of edges without a reset, and the reset as the only exit. -/
theorem faultIsSticky : Obligations.FaultIsSticky := by
  unfold Obligations.FaultIsSticky
  intro s e hp hvalid
  refine ⟨fun i => ⟨by rw [hp]; rfl, ?_⟩, ?_, fun qs rest hqs => edges_of_quiet_fault hp hvalid hqs rest,
    fun p ps => step_setPins_cons_of_rst s ps, fun t => step_leaves_fault_iff ((faultFlag_iff s).2 ⟨e, hp⟩)⟩
  · rw [exec_eq_edge, edge_of_quiet_fault i hp hvalid]
  · rw [State.outputs, State.ready, State.faultFlag, hp, hvalid]
    rfl

/-- In a busy phase every command acts as an absent one. -/
theorem exec_of_busy {s : State} (i : Instr) (hp : s.phase = .warmup ∨ s.phase = .byte) : exec i s = exec .idle s := by
  have hbusy : s.phase.ready = false := by obtain hp | hp := hp <;> rw [hp] <;> rfl
  exact exec_of_not_accepts (accepts_of_not_ready i hbusy)

/-- Settles O49: the four cases in order of precedence. -/
theorem precedenceOnOneEdge : Obligations.PrecedenceOnOneEdge := by
  unfold Obligations.PrecedenceOnOneEdge
  refine fun s p ps => ⟨step_setPins_cons_of_rst s ps, fun hrst hfault => ?_, fun hrst hp => ?_,
    fun hrst _ => step_setPins_cons s ps hrst⟩
  · obtain ⟨e, hp⟩ := (faultFlag_iff s).1 hfault
    rw [step_setPins_cons s ps hrst, exec_eq_edge, edge_of_fault (s := s.setPins ps) _ hp]
    rfl
  · have hbusy : ∀ q : Pins, q.rst = false → step (s.setPins (q :: ps)) = .next (edge .idle (s.setPins ps)) := fun q hq => by
      rw [step_setPins_cons s ps hq, exec_of_busy (s := s.setPins ps) _ hp, exec_eq_edge]
    exact ⟨_, hbusy p hrst, edge_reg_of_busy (s := s.setPins ps) .idle hp, hbusy⟩

end Sys2Proof.Machine
end

section
/-!
PROOF. A key and an IV given as bytes (60_exceptions.md R116, 30_encoding.md R55): the named errors, key first, and the place of
each byte on its port.
-/

namespace Sys2Proof.Machine

theorem operandOfBytes_concat (bytes : List Byte) (b : Byte) :
    operandOfBytes (bytes ++ [b]) = (operandOfBytes bytes <<< 8) ||| b.setWidth 80 := by
  rw [operandOfBytes, List.foldl_concat]
  rfl

/-- Counted from the last byte, byte `m` stands at weight `8 * m` of the port. -/
theorem operandOfBytes_getLsbD (bytes : List Byte) {m n : Nat} (hn : n < 8) (hm : m < 10) :
    (operandOfBytes bytes).getLsbD (8 * m + n) = (bytes.reverse.getD m 0).getLsbD n := by
  induction bytes using List.reverseRecOn generalizing m with
  | nil => simp [operandOfBytes]
  | append_singleton bytes b ih =>
    rw [operandOfBytes_concat, BitVec.getLsbD_or, BitVec.getLsbD_shiftLeft, BitVec.getLsbD_setWidth, List.reverse_concat]
    cases m with
    | zero =>
      have hport : n < 80 := by omega
      simp [hn, hport]
    | succ m =>
      have hport : 8 * (m + 1) + n < 80 := by omega
      have hpast : b.getLsbD (8 * (m + 1) + n) = false := BitVec.getLsbD_of_ge _ _ (by omega)
      have hback : 8 * (m + 1) + n - 8 = 8 * m + n := by omega
      have hlow : ¬ 8 * (m + 1) + n < 8 := by omega
      simp [hport, hpast, hback, hlow, ih (Nat.lt_of_succ_lt hm)]

/-- Byte `j` of an operand made from ten bytes is the byte given. -/
theorem operandByte_operandOfBytes {bytes : List Byte} (hlen : bytes.length = 10) {j : Nat} (hj : j < 10) :
    bytes[j]? = some (operandByte (operandOfBytes bytes) j) := by
  have hlt : j < bytes.length := by omega
  rw [List.getElem?_eq_getElem hlt]
  refine congrArg some (BitVec.eq_of_getLsbD_eq fun n hn => ?_)
  have hplace : 72 - 8 * j + n = 8 * (9 - j) + n := by omega
  have hindex : bytes.length - 1 - (9 - j) = j := by omega
  rw [operandByte_getLsbD _ _ hn, hplace, operandOfBytes_getLsbD bytes hn (by omega), List.getD_eq_getElem?_getD,
    List.getElem?_reverse (by omega), hindex, List.getElem?_eq_getElem hlt, Option.getD_some]

theorem legalOperandBytes_iff (bytes : List Byte) : legalOperandBytes bytes = true ↔ bytes.length = 10 := decide_eq_true_iff

theorem legalOperandBytes_eq_false_iff (bytes : List Byte) : legalOperandBytes bytes = false ↔ bytes.length ≠ 10 :=
  decide_eq_false_iff_not

/-- Settles O6: a bad key, a good key with a bad IV, and both good. -/
theorem byteStringInit : Obligations.ByteStringInit := by
  unfold Obligations.ByteStringInit
  refine fun ks vs => ⟨fun hk => ?_, fun hk hv => ?_, fun hk hv => ⟨operandOfBytes ks, operandOfBytes vs, ?_, fun j hj =>
    ⟨operandByte_operandOfBytes hk hj, operandByte_operandOfBytes hv hj⟩⟩⟩
  · simp [initOfBytes, (legalOperandBytes_eq_false_iff ks).2 hk]
  · simp [initOfBytes, (legalOperandBytes_iff ks).2 hk, (legalOperandBytes_eq_false_iff vs).2 hv]
  · simp [initOfBytes, (legalOperandBytes_iff ks).2 hk, (legalOperandBytes_iff vs).2 hv]

end Sys2Proof.Machine
end

section
/-!
PROOF. The end of a busy phase at the ports (70_reset_and_hazards.md R146): without a reset each edge takes one off the edges left
to the command in progress, whatever else the ports carry, and the engine is ready exactly when none is left.
-/

namespace Sys2Proof.Machine

/-- The invariant bounds the counters, so a consistent engine is live unless it has faulted. -/
theorem live_of_consistent {s : State} (hs : Consistent s) (hfault : s.faultFlag = false) : s.Live := by
  cases hp : s.phase with
  | warmup =>
    obtain ⟨hcount, -⟩ := (consistent_iff_of_warmup hp).1 hs
    simpa only [State.Live, hp] using hcount
  | fault e => simp [(faultFlag_iff s).2 ⟨e, hp⟩] at hfault
  | _ => simp only [State.Live, hp]

/-- A live engine is busy in WARMUP and in BYTE. -/
theorem busy_of_not_ready {s : State} (hl : s.Live) (hready : s.ready = false) : s.phase = .warmup ∨ s.phase = .byte := by
  cases hp : s.phase with
  | uninit => simp [(ready_iff s).2 (.inl hp)] at hready
  | warmup => exact .inl rfl
  | run => simp [(ready_iff s).2 (.inr hp)] at hready
  | byte => exact .inr rfl
  | fault e => simp [State.Live, hp] at hl

/-- A live engine is ready exactly when its command in progress has no edges left. -/
theorem ready_iff_edgesLeft_eq_zero {s : State} (hl : s.Live) : s.ready = true ↔ s.edgesLeft = 0 := by
  refine ⟨fun hready => ?_, ready_of_edgesLeft_zero hl⟩
  obtain hp | hp := (ready_iff s).1 hready <;> simp only [State.edgesLeft, hp]

/-- A live engine with edges left is not ready. -/
theorem not_ready_of_edgesLeft_pos {s : State} (hl : s.Live) (h : 0 < s.edgesLeft) : s.ready = false :=
  Bool.eq_false_iff.2 fun hready => h.ne' ((ready_iff_edgesLeft_eq_zero hl).1 hready)

/-- In a busy phase every command's edge is the idle one. -/
theorem edge_eq_idle_of_busy {s : State} (i : Instr) (hp : s.phase = .warmup ∨ s.phase = .byte) : edge i s = edge .idle s :=
  Host.Outcome.next.inj (by rw [← exec_eq_edge, ← exec_eq_edge, exec_of_busy i hp])

/-- Without a reset a step of a busy engine advances its command in progress, whatever else the ports carry. -/
theorem exists_step_advances_of_busy {s : State} (hl : s.Live) (hready : s.ready = false) (hrst : (sample s).1.rst = false) :
    ∃ t, step s = .next t ∧ Advances s t ∧ t.pins = s.pins.tail := by
  have hp := busy_of_not_ready hl hready
  have hadv : Advances (s.setPins s.pins.tail) (edge .idle (s.setPins s.pins.tail)) :=
    advances_idle (s := s.setPins s.pins.tail) hl
  refine ⟨_, step_of_rst_low hrst, ?_, (edgeRow_edge _ _).pins_eq⟩
  rw [edge_eq_idle_of_busy (s := s.setPins s.pins.tail) _ hp]
  exact ⟨hadv.live, hadv.leaves, hadv.reads, hadv.edgesLeft⟩

/-- So many edges without a reset, no more than are left to the command in progress, leave that many fewer. -/
theorem exists_edges_of_le_edgesLeft {s : State} {n : Nat} (hl : s.Live) (hn : n ≤ s.edgesLeft)
    (hrst : NoReset (s.pins.take n)) : ∃ t, edges n s = .next t ∧ t.Live ∧ t.edgesLeft = s.edgesLeft - n := by
  induction n generalizing s with
  | zero => exact ⟨s, rfl, hl, rfl⟩
  | succ n ih =>
    have hready := not_ready_of_edgesLeft_pos hl (by omega)
    obtain ⟨t, hstep, hadv, hpins⟩ := exists_step_advances_of_busy hl hready (sample_rst_of_noReset hrst)
    have hleft := hadv.edgesLeft
    obtain ⟨u, hedges, hu, hrest⟩ := ih hadv.live (by omega) (hpins ▸ noReset_take_tail hrst)
    exact ⟨u, (edges_succ s n hstep).trans hedges, hu, by omega⟩

/-- In a busy phase the counter of the phase says how many edges are left. -/
theorem edgesLeft_of_busy {s : State} (hp : s.phase = .warmup ∨ s.phase = .byte) :
    s.edgesLeft = if s.phase = .warmup then 1152 - s.wcnt.toNat else 8 - s.bcnt.toNat := by
  obtain hp | hp := hp <;> simp [State.edgesLeft, hp]

/-- Settles O51: after the edges left none is left, and after fewer some are. -/
theorem readyAlwaysReturns : Obligations.ReadyAlwaysReturns := by
  unfold Obligations.ReadyAlwaysReturns
  intro s hs hfault hrst hready
  have hl := live_of_consistent hs hfault
  have hrun : ∀ m ≤ s.edgesLeft, ∃ t, edges m s = .next t ∧ t.Live ∧ t.edgesLeft = s.edgesLeft - m := fun m hm =>
    exists_edges_of_le_edgesLeft hl hm fun p hp => hrst p (List.mem_of_mem_take hp)
  obtain ⟨t, hedges, ht, hleft⟩ := hrun s.edgesLeft le_rfl
  refine ⟨s.edgesLeft, t, edgesLeft_le s, edgesLeft_of_busy (busy_of_not_ready hl hready), hedges,
    (ready_iff_edgesLeft_eq_zero ht).2 (by omega), fun m u hm hu => ?_⟩
  obtain ⟨u', hedges', hu', hleft'⟩ := hrun m hm.le
  obtain rfl : u' = u := Host.Outcome.next.inj (hedges'.symm.trans hu)
  exact not_ready_of_edgesLeft_pos hu' (by omega)

end Sys2Proof.Machine
end

section
/-!
PROOF. The reset state (70_reset_and_hazards.md R133): a register of zeros steps to itself with output 0, and a drawing command
leaves the reset state, since UNINIT drops it.
-/

namespace Sys2Proof.Machine

/-- UNINIT drops a drawing command, so the reset state is left as it is. -/
theorem exec_drawing_of_reset {i : Instr} (hi : drawsOnly i = true) (ps : List Pins) :
    exec i (State.reset.setPins ps) = .next (State.reset.setPins ps) := by
  have hdrop : accepts .uninit i = false := by obtain rfl | rfl := (drawsOnly_iff i).1 hi <;> rfl
  rw [exec_eq_edge, edge_of_hold (s := State.reset.setPins ps) rfl (.inr hdrop)]
  rfl

/-- All fifteen taps of a register of zeros are 0, and so are the output and the three bits fed back. -/
theorem clockStep_zero : clockStep 0 = (0, false) := by decide

/-- Settles O8: the reset edge, its values, the register as a fixed point, and the drawing commands dropped. -/
theorem resetGivesTheResetState : Obligations.ResetGivesTheResetState := by
  unfold Obligations.ResetGivesTheResetState
  exact ⟨fun s _ ps hrst => step_setPins_cons_of_rst s ps hrst, ⟨rfl, rfl, rfl, rfl, rfl, rfl, rfl, rfl, rfl⟩, clockStep_zero,
    fun ps => ⟨exec_drawing_of_reset rfl ps, exec_drawing_of_reset rfl ps⟩⟩

end Sys2Proof.Machine
end
